-- ==== Sys2Proof/Word.lean ====
section
/-! DEFINITION. The word types of the CONV2D engine: what the spec treats as bits, at the width it gives. -/

namespace Sys2Proof

/-- A command word or a response word: `CMD_BITS = RSP_BITS = 32` (00_scope.md R10). -/
abbrev Word := BitVec 32

/-- A pixel: `PIXEL_BITS = 8`, unsigned (00_scope.md R8). -/
abbrev Pixel := BitVec 8

/-- A kernel weight: `WBITS = 22`, two's complement, standing for `n / 2^16` (00_scope.md R11). -/
abbrev Weight := BitVec 22

/-- An image width or height: `DIM_BITS = 14`, unsigned (00_scope.md R13). -/
abbrev Dim := BitVec 14

/-- A kernel height or width, or a kernel row or column in a command word: 3 bits (30_encoding.md R71). -/
abbrev Bits3 := BitVec 3

/-- A pixel address in a command word: `ADDR_BITS = 20` (00_scope.md R13). -/
abbrev PixelAddr := BitVec 20

/-- A register number in a command word: 4 bits (30_encoding.md R71). -/
abbrev RegNum := BitVec 4

/-- The data field of a response word: 28 bits (30_encoding.md R79). -/
abbrev RspData := BitVec 28

end Sys2Proof
end

