-- ==== Sys2Proof/Config.lean ====
section
/-! DEFINITION. What is fixed for the machine (00_scope.md section 4, 10_state.md R28) and the values the spec leaves open. -/

namespace Sys2Proof.Config

/-- `KMAX = 5`: the side of the kernel store and of the MAC array (00_scope.md R9). -/
def kMax : Nat := 5

/-- `WFRAC = 16`: the fraction bits of a weight (00_scope.md R11). -/
def wFrac : Nat := 16

/-- `BUF_PIXELS = 2^20`: the cells of each pixel memory (00_scope.md R13). -/
def bufPixels : Nat := 1048576

/-- `REG.ID`, the read-only constant `0x2DC0510`: block `0x2DC`, `KMAX` 5, `WFRAC` 16 (10_state.md R28). -/
def regId : RspData := 0x2DC0510#28

/-- What cell `a` of `IBUF` holds after the `n`-th hardware reset, until something is written to it: "any 8-bit value,
not necessarily the same after each reset" (10_state.md R36). A free value: nothing constrains it (log 3). -/
opaque freeInputPixel : (n a : Nat) → Pixel

/-- The same for cell `a` of `OBUF` (10_state.md R36). A free value (log 3). -/
opaque freeOutputPixel : (n a : Nat) → Pixel

/-! ### `HostFloat`, the HOST's floating point

92_eei_decisions.md D19 leaves the "format and rounding of `sqrt`, `/`, `*` on the host" OPEN. The four constants below are
free values of the host-side FilterBank: how much finer than the coarsest admitted format the host's numbers lie near a
result, and which of the two neighbours an inexact result goes to. No engine rule uses them (log 13). -/

/-- The coarsest host format admitted: near `x` its numbers lie at most `x / 2^14` apart (15 significant bits; PRESUMED,
log 13). -/
def hostPrecision : Nat := 16384

/-- Extra steps per unit of the host's numbers near `sqrt(m)`. A free value (log 13). -/
opaque hostSqrtSteps : (m : Nat) → Nat

/-- Whether the host rounds an inexact `sqrt(m)` up. A free value (log 13). -/
opaque hostSqrtUp : (m : Nat) → Bool

/-- Extra steps per unit of the host's numbers near `x`. A free value (log 13). -/
opaque hostSteps : (x : ℚ) → Nat

/-- Whether the host rounds an inexact result `x` of a division or multiplication up. A free value (log 13). -/
opaque hostUp : (x : ℚ) → Bool

end Sys2Proof.Config
end

