-- ==== Sys2Proof/Machine/State.lean ====
section
/-! DEFINITION. The state of the engine (10_state.md R20), the two channels to its host (00_scope.md R15, R16), the reset
state (10_state.md R36) and the ways a step can stop. -/

namespace Sys2Proof.Machine

/-- A pixel memory: the cells written since the last hardware reset, addresses strictly rising. An unlisted address holds
no written value; what the machine reads there is the free value of the reset (log 3). -/
abbrev Memory := List Host.Cell

/-- What the host does next at the engine's ports (00_scope.md R15, R18; 70_reset_and_hazards.md R190). -/
inductive HostInput where
  /-- Presents one command word on the command channel. -/
  | command (c : Word)
  /-- Asserts `rst_n`. If a command is in progress (accepted, not yet answered), it is `inProgress`, and it is
  abandoned without a response (70_reset_and_hazards.md R190; log 5). -/
  | reset (inProgress : Option Word)
  deriving DecidableEq, Repr

/-- The state of one engine and of its two channels. -/
structure State where
  /-- `K[u][v]`: the kernel store, row `u`, column `v` (10_state.md R21). -/
  k : Vector (Vector Weight 5) 5
  /-- `REG.IMG_W` (10_state.md R23). -/
  imgW : Dim
  /-- `REG.IMG_H` (10_state.md R23). -/
  imgH : Dim
  /-- `REG.K_H` (10_state.md R24). -/
  kH : Bits3
  /-- `REG.K_W` (10_state.md R24). -/
  kW : Bits3
  /-- `REG.OUT_W` (10_state.md R25). -/
  outW : Dim
  /-- `REG.OUT_H` (10_state.md R25). -/
  outH : Dim
  /-- `OVALID`, bit 0 of `REG.STATUS`, whose other bits read as 0 (10_state.md R26). -/
  ovalid : Bool
  /-- `IBUF` (10_state.md R33). -/
  ibuf : Memory
  /-- `OBUF` (10_state.md R34). -/
  obuf : Memory
  /-- What the host presents from now on, oldest first (model's own form of the command channel, log 1). -/
  pending : List HostInput
  /-- The response words delivered so far, oldest first (model's own form of the response channel, log 2). -/
  responses : List Word
  /-- Hardware resets so far: it only indexes the free contents of the pixel memories (model's own, log 4). -/
  resets : Nat
  deriving DecidableEq, Repr

/-- Every reason a step can stop with a fault. The spec names none (60_exceptions.md R179); both stand for an access to
something the spec says does not exist, in states that no run from reset reaches (log 6). Safe: the model stops where
the spec gives no effect. -/
inductive Fault where
  /-- Raised by `CONV` when `IMG_W * IMG_H > 2^20`: the image has a pixel at an address that is no cell of a pixel
  memory (20_memory.md R50). Safe; the registers never hold such a pair (10_state.md R23). -/
  | noSuchPixel
  /-- Raised by `CONV` when `K_H > 5` or `K_W > 5`: the kernel has a weight at a position outside the 5x5 store
  (10_state.md R21). Safe; the registers never hold such a value (10_state.md R24). -/
  | noSuchWeight
  deriving DecidableEq, Repr

/-- Every reason a step can be refused. -/
inductive Refusal where
  /-- Raised by an arm of `exec` for an instruction that has no meaning yet (no arm does). Safe. -/
  | notModelled (mnemonic : String)
  deriving DecidableEq, Repr

/-- The state after a hardware reset (10_state.md R36, 70_reset_and_hazards.md R191): every register, weight and flag 0;
nothing written in either memory, so that every cell reads as the free value of this reset; nothing presented, nothing
answered. -/
def State.reset : State where
  k := Vector.replicate 5 (Vector.replicate 5 0)
  imgW := 0
  imgH := 0
  kH := 0
  kW := 0
  outW := 0
  outH := 0
  ovalid := false
  ibuf := []
  obuf := []
  pending := []
  responses := []
  resets := 0

end Sys2Proof.Machine
end

