-- ==== Sys2Proof/Machine/Ops.lean ====
section
/-! DEFINITION. The named operations over the pixel memories, the registers and the channels; completing a command and
raising an error (60_exceptions.md R165), each ONE shared operation; reset. -/

namespace Sys2Proof.Machine

/-! ### Pixel memories (10_state.md R33, R34; 20_memory.md R50 to R54) -/

/-- The value written at address `a`, if one has been written. -/
def Memory.lookup : Memory → Nat → Option Pixel
  | [], _ => none
  | (b, p) :: m, a => if a = b then some p else Memory.lookup m a

/-- `MemWrite(…, a, 1, p)`, keeping the addresses rising. -/
def Memory.write : Memory → Nat → Pixel → Memory
  | [], a, p => [(a, p)]
  | (b, q) :: m, a, p =>
    if a < b then (a, p) :: (b, q) :: m
    else if a = b then (a, p) :: m
    else (b, q) :: Memory.write m a p

/-- The cells `a, a + 1, …` holding the pixels in order. -/
def Memory.cellsFrom : Nat → List Pixel → Memory
  | _, [] => []
  | a, p :: ps => (a, p) :: Memory.cellsFrom (a + 1) ps

/-- The cells at addresses `n` and above. -/
def Memory.above (n : Nat) (m : Memory) : Memory := m.filter fun c => decide (n ≤ c.1)

/-- Writes the pixels to addresses `0, 1, …`; every other cell stays as it was (10_state.md R34, 42_convolve.md R118). -/
def Memory.writeBlock (m : Memory) (ps : List Pixel) : Memory :=
  Memory.cellsFrom 0 ps ++ Memory.above ps.length m

/-- Addresses strictly rising from `lo` on, all below `2^20`. -/
def Memory.wfFrom : Nat → Memory → Bool
  | _, [] => true
  | lo, (a, _) :: m => decide (lo ≤ a) && decide (a < Config.bufPixels) && Memory.wfFrom (a + 1) m

/-- The canonical form: addresses strictly rising, each a cell of the memory. (No entry can equal what an unlisted
address holds, which is no value.) -/
def Memory.wf (m : Memory) : Bool := Memory.wfFrom 0 m

/-- `MemRead(IBUF, a, 1)`: the byte written last, or, where nothing has been written since the reset, the free value of
that cell (10_state.md R36, 70_reset_and_hazards.md R194; log 3). -/
def State.readIbuf (s : State) (a : Nat) : Pixel :=
  (Memory.lookup s.ibuf a).getD (Config.freeInputPixel s.resets a)

/-- `MemRead(OBUF, a, 1)` (as `readIbuf`). -/
def State.readObuf (s : State) (a : Nat) : Pixel :=
  (Memory.lookup s.obuf a).getD (Config.freeOutputPixel s.resets a)

/-- `MemWrite(IBUF, a, 1, p)`. -/
def State.writeIbuf (s : State) (a : Nat) (p : Pixel) : State := { s with ibuf := Memory.write s.ibuf a p }

/-! ### Registers -/

/-- `K[u][v]` (10_state.md R21). -/
def State.weight (s : State) (u v : Fin 5) : Weight := s.k[u][v]

/-- `K[u][v] <- n`. -/
def State.setWeight (s : State) (u v : Fin 5) (n : Weight) : State := { s with k := s.k.set u (s.k[u].set v n) }

/-- `REG.IMG_W <- w`, `REG.IMG_H <- h` (10_state.md R23: written together). -/
def State.setImage (s : State) (w h : Dim) : State := { s with imgW := w, imgH := h }

/-- `REG.K_H <- kh`, `REG.K_W <- kw` (10_state.md R24: written together). -/
def State.setKernel (s : State) (kh kw : Bits3) : State := { s with kH := kh, kW := kw }

/-- Write-back of `CONV` (42_convolve.md R118): the image to `OBUF` from address 0, its dimensions to `REG.OUT_W` and
`REG.OUT_H`, and `OVALID <- 1`. -/
def State.publish (s : State) (image : List Pixel) : State :=
  { s with obuf := Memory.writeBlock s.obuf image, outW := s.imgW, outH := s.imgH, ovalid := true }

/-- All 25 weights, the six dimension registers and `OVALID` to 0; the memories are kept (43_system_commands.md R132). -/
def State.clearRegisters (s : State) : State :=
  { s with
    k := Vector.replicate 5 (Vector.replicate 5 0), imgW := 0, imgH := 0, kH := 0, kW := 0, outW := 0, outH := 0,
    ovalid := false }

/-! ### Responses and errors (30_encoding.md R79, 60_exceptions.md R160, R165) -/

/-- The error names of 60_exceptions.md R160. -/
inductive ErrorCode where
  /-- Code 0: success. -/
  | ok
  /-- Code 1: a kernel dimension is even or zero (R161). -/
  | invalidKernel
  /-- Code 2: image width or height is zero (R162). -/
  | emptyImage
  /-- Code 3: all-zero Sobel magnitude; host library only, never raised by the engine (R163). -/
  | degenerateGradient
  /-- Code 4: the word matches no command (R164). -/
  | illegalCommand
  /-- Code 5: an operand exceeds a capacity of the block (R166). -/
  | outOfRange
  /-- Code 6: no output has been produced (R167). -/
  | noResult
  deriving DecidableEq, Repr

/-- The 4-bit code (60_exceptions.md R160). -/
def ErrorCode.code : ErrorCode → BitVec 4
  | .ok => 0
  | .invalidKernel => 1
  | .emptyImage => 2
  | .degenerateGradient => 3
  | .illegalCommand => 4
  | .outOfRange => 5
  | .noResult => 6

/-- A response word: bits 31:28 the code, bits 27:0 the data (30_encoding.md R79). -/
def responseWord (e : ErrorCode) (d : RspData) : Word := e.code ++ d

/-- Delivers a response word (00_scope.md R16). -/
def State.deliver (s : State) (r : Word) : State := { s with responses := s.responses ++ [r] }

/-- `respond(d)`: the command completes, code 0 and data `d` (00_scope.md R19). -/
def State.respond (s : State) (d : RspData) : State := s.deliver (responseWord .ok d)

/-- `raise e`: the command is abandoned, nothing changes, and the response word is the code with data 0; the engine is
ready for the next command as after a success (60_exceptions.md R165, R170). This is all there is to error entry: no
handler, no saved state, and no return (R171). -/
def State.raise (s : State) (e : ErrorCode) : State := s.deliver (responseWord e 0)

/-- The error code of a response word (30_encoding.md R79). -/
def rspError (r : Word) : BitVec 4 := r.extractLsb 31 28

/-- The data of a response word (30_encoding.md R79). -/
def rspDataOf (r : Word) : RspData := r.extractLsb 27 0

/-! ### Hardware reset and the host's side (70_reset_and_hazards.md R190 to R192; 00_scope.md R18) -/

/-- Assertion of `rst_n`: the registers as in 10_state.md R36, both memories unspecified again, a command in progress
abandoned without a response whatever it was. What the host has still to present and the responses already delivered are
the host's and stay (log 5). -/
def State.hardReset (s : State) (_inProgress : Option Word) : State :=
  { s.clearRegisters with ibuf := [], obuf := [], resets := s.resets + 1 }

/-- The host decides to present one more word after those it has decided on already (00_scope.md R18). -/
def State.send (s : State) (c : Word) : State := { s with pending := s.pending ++ [.command c] }

/-- The host takes the next of its inputs to the ports: what it presents, and the state with the rest to come. -/
def State.takeInput (s : State) : Option (HostInput × State) :=
  match s.pending with
  | [] => none
  | x :: rest => some (x, { s with pending := rest })

/-- The host presents the word before everything it has decided on already. -/
def State.presentFirst (s : State) (c : Word) : State := { s with pending := .command c :: s.pending }

end Sys2Proof.Machine
end

