-- ==== Sys2Proof/Machine/Operands.lean ====
section
/-! DEFINITION. Operand forms: kernel positions, register numbers, and the operands `CONV` reads (padding, the padded
sample, the lanes of the MAC array, the raw sum, the clamp unit). -/

namespace Sys2Proof.Machine

/-- The row or column of the kernel store a 3-bit operand names; none for 5, 6, 7 (40_configuration_commands.md R92). -/
def kernelIndex (u : Bits3) : Option (Fin 5) := if h : u.toNat < 5 then some ⟨u.toNat, h⟩ else none

/-- The readable control registers (10_state.md R29). -/
inductive CtrlReg where
  | imgW | imgH | kH | kW | outW | outH | status | id
  deriving DecidableEq, Repr

/-- The register of a number; 8 to 15 are reserved (10_state.md R29). -/
def CtrlReg.ofNumber (r : RegNum) : Option CtrlReg :=
  match r.toNat with
  | 0 => some .imgW
  | 1 => some .imgH
  | 2 => some .kH
  | 3 => some .kW
  | 4 => some .outW
  | 5 => some .outH
  | 6 => some .status
  | 7 => some .id
  | _ => none

/-! ### What `CONV` reads (42_convolve.md section 2) -/

/-- `pad_h = kh // 2`, `pad_w = kw // 2` (42_convolve.md R111). -/
def pad (k : Bits3) : Nat := k.toNat / 2

/-- The padded sample function `in(y, x)`: the image's pixel, and 0, with no memory access, for a neighbour outside the
image (42_convolve.md R112, 20_memory.md R65). -/
def State.sample (s : State) (y x : Int) : Int :=
  if 0 ≤ y ∧ y < s.imgH.toNat ∧ 0 ≤ x ∧ x < s.imgW.toNat then
    (s.readIbuf (y.toNat * s.imgW.toNat + x.toNat)).toNat
  else 0

/-- The output of lane `(u, v)` for output pixel `(i, j)`: the exact product of an active lane, the kernel not flipped;
0 for an inactive lane (42_convolve.md R113, R114, R116). -/
def State.lane (s : State) (i j : Nat) (u v : Fin 5) : Int :=
  if u.val < s.kH.toNat ∧ v.val < s.kW.toNat then
    (s.weight u v).toInt * s.sample ((i : Int) + u.val - pad s.kH) ((j : Int) + v.val - pad s.kW)
  else 0

/-- The rows, and the columns, of the MAC array. -/
def laneIndices : List (Fin 5) := [0, 1, 2, 3, 4]

/-- The raw sum `S(i, j)`: the exact sum of the 25 lane outputs (42_convolve.md R115, R116; an unbounded integer,
00_scope.md R12). -/
def State.rawSum (s : State) (i j : Nat) : Int :=
  (laneIndices.map fun u => (laneIndices.map fun v => s.lane i j u v).sum).sum

/-- `clip(x, lo, hi)` (00_scope.md R19). -/
def clip (x lo hi : Int) : Int := if x < lo then lo else if hi < x then hi else x

/-- The output clamping unit: clamp to `[0, 255 * 2^16]` first, then drop the 16 fraction bits (42_convolve.md R117). -/
def clampUnit (sum : Int) : Pixel := BitVec.ofInt 8 (clip sum 0 (255 * 2 ^ Config.wFrac) / 2 ^ Config.wFrac)

/-- Output sample `(i, j)` (42_convolve.md R117, R118). -/
def State.outSample (s : State) (i j : Nat) : Pixel := clampUnit (s.rawSum i j)

/-- The output image in row-major order: cell `i * W + j` is sample `(i, j)` (42_convolve.md R118, 20_memory.md R51). -/
def State.convImage (s : State) : List Pixel :=
  (List.range (s.imgW.toNat * s.imgH.toNat)).map fun a => s.outSample (a / s.imgW.toNat) (a % s.imgW.toNat)

end Sys2Proof.Machine
end

