-- ==== Sys2Proof/Machine/Buffer.lean ====
section
/-! DEFINITION. The pixel buffer commands `LDPX`, `RDPX` (41_buffer_commands.md). -/

namespace Sys2Proof.Machine

/-- `LDPX a, p`: cannot fail; the address is not checked against the image (41_buffer_commands.md R100). -/
def execLdpx (a : PixelAddr) (p : Pixel) (s : State) : Host.Outcome State Fault Refusal :=
  .next ((s.writeIbuf a.toNat p).respond 0)

/-- `RDPX a`: `NoResult` before `OutOfRange`; the bound is the latched output size (41_buffer_commands.md R101). -/
def execRdpx (a : PixelAddr) (s : State) : Host.Outcome State Fault Refusal :=
  if s.ovalid = false then .next (s.raise .noResult)
  else if s.outW.toNat * s.outH.toNat ≤ a.toNat then .next (s.raise .outOfRange)
  else .next (s.respond ((s.readObuf a.toNat).setWidth 28))

end Sys2Proof.Machine
end

