-- ==== Sys2Proof/Machine/Configuration.lean ====
section
/-! DEFINITION. The configuration commands `SETIMG`, `SETKRN`, `LDW`, `RDW` (40_configuration_commands.md). -/

namespace Sys2Proof.Machine

/-- `SETIMG w, h` (40_configuration_commands.md R90). -/
def execSetimg (w h : Dim) (s : State) : Host.Outcome State Fault Refusal :=
  if Config.bufPixels < w.toNat * h.toNat then .next (s.raise .outOfRange)
  else .next ((s.setImage w h).respond 0)

/-- `SETKRN kh, kw`: the even-or-zero check before the too-large one (40_configuration_commands.md R91). -/
def execSetkrn (kh kw : Bits3) (s : State) : Host.Outcome State Fault Refusal :=
  if kh.toNat % 2 = 0 ∨ kw.toNat % 2 = 0 then .next (s.raise .invalidKernel)
  else if Config.kMax < kh.toNat ∨ Config.kMax < kw.toNat then .next (s.raise .outOfRange)
  else .next ((s.setKernel kh kw).respond 0)

/-- `LDW u, v, n`: the position is checked against the 5x5 store, not against the kernel dimensions
(40_configuration_commands.md R92). -/
def execLdw (u v : Bits3) (n : Weight) (s : State) : Host.Outcome State Fault Refusal :=
  match kernelIndex u, kernelIndex v with
  | some row, some col => .next ((s.setWeight row col n).respond 0)
  | _, _ => .next (s.raise .outOfRange)

/-- `RDW u, v`: the raw 22-bit pattern, not sign-extended (40_configuration_commands.md R93). -/
def execRdw (u v : Bits3) (s : State) : Host.Outcome State Fault Refusal :=
  match kernelIndex u, kernelIndex v with
  | some row, some col => .next (s.respond ((s.weight row col).setWidth 28))
  | _, _ => .next (s.raise .outOfRange)

end Sys2Proof.Machine
end

