-- ==== Sys2Proof/Machine/Convolve.lean ====
section
/-! DEFINITION. The command `CONV` (42_convolve.md). -/

namespace Sys2Proof.Machine

/-- `CONV` (42_convolve.md R110, R119): `InvalidKernel`, then `EmptyImage`, then the whole image in one step. The two
faults stand for reads and writes of cells and weights that do not exist, which no state within the registers' legal
values asks for (log 6). -/
def execConv (s : State) : Host.Outcome State Fault Refusal :=
  if s.kH = 0 ∨ s.kW = 0 then .next (s.raise .invalidKernel)
  else if s.imgW = 0 ∨ s.imgH = 0 then .next (s.raise .emptyImage)
  else if Config.kMax < s.kH.toNat ∨ Config.kMax < s.kW.toNat then .fault .noSuchWeight
  else if Config.bufPixels < s.imgW.toNat * s.imgH.toNat then .fault .noSuchPixel
  else .next ((s.publish s.convImage).respond 0)

end Sys2Proof.Machine
end

