-- ==== Sys2Proof/Syntax.lean ====
section
/-! DEFINITION. The ten commands of the opcode table (30_encoding.md R83). Operands have exactly the widths of their
fields (R71, R73), so every term is an encodable command (R77: an operand that is encodable but out of range is a legal
encoding of a command that then fails). -/

namespace Sys2Proof

/-- A command, operands in the order of the assembler's syntax (30_encoding.md R80). -/
inductive Instr where
  /-- `NOP` (43_system_commands.md R130). -/
  | nop
  /-- `SETIMG w, h` (40_configuration_commands.md R90). -/
  | setimg (w h : Dim)
  /-- `SETKRN kh, kw` (40_configuration_commands.md R91). -/
  | setkrn (kh kw : Bits3)
  /-- `LDW u, v, n` (40_configuration_commands.md R92). -/
  | ldw (u v : Bits3) (n : Weight)
  /-- `LDPX a, p` (41_buffer_commands.md R100). -/
  | ldpx (a : PixelAddr) (p : Pixel)
  /-- `RDPX a` (41_buffer_commands.md R101). -/
  | rdpx (a : PixelAddr)
  /-- `CONV` (42_convolve.md R110). -/
  | conv
  /-- `RDREG r` (43_system_commands.md R131). -/
  | rdreg (r : RegNum)
  /-- `RDW u, v` (40_configuration_commands.md R93). -/
  | rdw (u v : Bits3)
  /-- `SRST` (43_system_commands.md R132). -/
  | srst
  deriving DecidableEq, Repr

end Sys2Proof
end

