-- ==== Sys2Proof/Decode.lean ====
section
/-! DEFINITION. Decoding and encoding of command words (30_encoding.md R70 to R78, R83), and the byte order of files of
command words (20_memory.md R52). -/

namespace Sys2Proof

/-- Why a word is no command; both give `IllegalCommand` (60_exceptions.md R164). -/
inductive Illegal where
  /-- The opcode is `0xA` to `0xF` (30_encoding.md R75). -/
  | reservedOpcode (op : BitVec 4)
  /-- A reserved bit of the opcode's format is 1 (30_encoding.md R76). -/
  | reservedBits (op : BitVec 4)
  deriving DecidableEq, Repr

/-- The opcode, bits 31:28 (30_encoding.md R70). -/
def opcode (c : Word) : BitVec 4 := c.extractLsb 31 28

/-- A command whose reserved bits are `z`: they must be 0 (30_encoding.md R76). -/
def ifReservedZero {n : Nat} (z : BitVec n) (op : BitVec 4) (i : Instr) : Except Illegal Instr :=
  if z = 0#n then .ok i else .error (.reservedBits op)

/-- The command a word stands for: formats of 30_encoding.md R71, operands of R73, opcodes of R83. Total, and
independent of any state (R74, R78). -/
def decode (c : Word) : Except Illegal Instr :=
  match (opcode c).toNat with
  | 0 => ifReservedZero (c.extractLsb 27 0) (opcode c) .nop
  | 1 => .ok (.setimg (c.extractLsb 27 14) (c.extractLsb 13 0))
  | 2 => ifReservedZero (c.extractLsb 27 6) (opcode c) (.setkrn (c.extractLsb 5 3) (c.extractLsb 2 0))
  | 3 => .ok (.ldw (c.extractLsb 27 25) (c.extractLsb 24 22) (c.extractLsb 21 0))
  | 4 => .ok (.ldpx (c.extractLsb 19 0) (c.extractLsb 27 20))
  | 5 => ifReservedZero (c.extractLsb 27 20) (opcode c) (.rdpx (c.extractLsb 19 0))
  | 6 => ifReservedZero (c.extractLsb 27 0) (opcode c) .conv
  | 7 => ifReservedZero (c.extractLsb 27 4) (opcode c) (.rdreg (c.extractLsb 3 0))
  | 8 => ifReservedZero (c.extractLsb 21 0) (opcode c) (.rdw (c.extractLsb 27 25) (c.extractLsb 24 22))
  | 9 => ifReservedZero (c.extractLsb 27 0) (opcode c) .srst
  | _ => .error (.reservedOpcode (opcode c))

/-- The word of a command: the fields of its format, most significant first (30_encoding.md R71). -/
def encode : Instr → Word
  | .nop => 0x0#4 ++ 0#28
  | .setimg w h => 0x1#4 ++ w ++ h
  | .setkrn kh kw => 0x2#4 ++ 0#22 ++ kh ++ kw
  | .ldw u v n => 0x3#4 ++ u ++ v ++ n
  | .ldpx a p => 0x4#4 ++ p ++ a
  | .rdpx a => 0x5#4 ++ 0#8 ++ a
  | .conv => 0x6#4 ++ 0#28
  | .rdreg r => 0x7#4 ++ 0#24 ++ r
  | .rdw u v => 0x8#4 ++ u ++ v ++ 0#22
  | .srst => 0x9#4 ++ 0#28

/-- A row of the opcode map: a word `c` is the command iff `c & mask = pattern` (30_encoding.md R83). -/
structure OpcodeRow where
  mnemonic : String
  pattern : Word
  mask : Word
  deriving DecidableEq, Repr

/-- `c & mask = pattern`. -/
def OpcodeRow.hits (r : OpcodeRow) (c : Word) : Prop := c &&& r.mask = r.pattern

/-- The row of each command, as 30_encoding.md R83 prints it. -/
def opcodeRow : Instr → OpcodeRow
  | .nop => ⟨"NOP", 0x00000000#32, 0xFFFFFFFF#32⟩
  | .setimg _ _ => ⟨"SETIMG", 0x10000000#32, 0xF0000000#32⟩
  | .setkrn _ _ => ⟨"SETKRN", 0x20000000#32, 0xFFFFFFC0#32⟩
  | .ldw _ _ _ => ⟨"LDW", 0x30000000#32, 0xF0000000#32⟩
  | .ldpx _ _ => ⟨"LDPX", 0x40000000#32, 0xF0000000#32⟩
  | .rdpx _ => ⟨"RDPX", 0x50000000#32, 0xFFF00000#32⟩
  | .conv => ⟨"CONV", 0x60000000#32, 0xFFFFFFFF#32⟩
  | .rdreg _ => ⟨"RDREG", 0x70000000#32, 0xFFFFFFF0#32⟩
  | .rdw _ _ => ⟨"RDW", 0x80000000#32, 0xF03FFFFF#32⟩
  | .srst => ⟨"SRST", 0x90000000#32, 0xFFFFFFFF#32⟩

/-- The ten rows of 30_encoding.md R83, in the table's order. -/
def opcodeTable : List OpcodeRow :=
  [opcodeRow .nop, opcodeRow (.setimg 0 0), opcodeRow (.setkrn 0 0), opcodeRow (.ldw 0 0 0), opcodeRow (.ldpx 0 0),
   opcodeRow (.rdpx 0), opcodeRow .conv, opcodeRow (.rdreg 0), opcodeRow (.rdw 0 0), opcodeRow .srst]

/-- The word with the table's bits numbered from 0 (a command is one word, so the table's numbering is the word's own),
every bit at or above `nbits` being 0. -/
def tableWord (nbits w : Nat) : Word := BitVec.ofNat 32 (w % 2 ^ nbits)

/-- The command the decoder reads from the word whose low `nbits` bits are `w`'s. -/
def decodeTableWord (nbits w : Nat) : Option Instr := (decode (tableWord nbits w)).toOption

/-- The four bytes of a command word in a file: little-endian, byte 0 holds bits 7:0 (20_memory.md R52). -/
def wordToBytes (c : Word) : List (BitVec 8) :=
  [c.extractLsb 7 0, c.extractLsb 15 8, c.extractLsb 23 16, c.extractLsb 31 24]

/-- The word of four bytes of a file, the first one holding bits 7:0 (20_memory.md R52). -/
def bytesToWord (b0 b1 b2 b3 : BitVec 8) : Word := b3 ++ b2 ++ b1 ++ b0

/-- The command words of a file; none where its length is no multiple of four. -/
def fileToWords : List (BitVec 8) → Option (List Word)
  | [] => some []
  | b0 :: b1 :: b2 :: b3 :: rest => (fileToWords rest).map (bytesToWord b0 b1 b2 b3 :: ·)
  | _ => none

/-- The file of a list of command words. -/
def wordsToFile (cs : List Word) : List (BitVec 8) := cs.flatMap wordToBytes

end Sys2Proof
end

