-- ==== Sys2Proof/Machine/Flags.lean ====
section
/-! DEFINITION. The one flag of the engine, `OVALID` (10_state.md R26: no condition codes, no carry, no overflow), and the
value a control register reads as (10_state.md R29, 43_system_commands.md R131). `OVALID` is set by `State.publish` and
cleared by `State.clearRegisters`, and by nothing else. -/

namespace Sys2Proof.Machine

/-- `REG.STATUS`: bit 0 is `OVALID`, bits 27:1 read as 0 (10_state.md R26). -/
def State.statusWord (s : State) : RspData := if s.ovalid then 1 else 0

/-- The value of a control register, zero-extended to 28 bits (20_memory.md R54, 43_system_commands.md R131). `REG.ID` is
hard-wired (10_state.md R28). -/
def State.readReg (s : State) : CtrlReg → RspData
  | .imgW => s.imgW.setWidth 28
  | .imgH => s.imgH.setWidth 28
  | .kH => s.kH.setWidth 28
  | .kW => s.kW.setWidth 28
  | .outW => s.outW.setWidth 28
  | .outH => s.outH.setWidth 28
  | .status => s.statusWord
  | .id => Config.regId

end Sys2Proof.Machine
end

