-- ==== Sys2Proof/Machine/System.lean ====
section
/-! DEFINITION. The system commands `NOP`, `RDREG`, `SRST` (43_system_commands.md), and what a word that is no command
does (30_encoding.md R74). -/

namespace Sys2Proof.Machine

/-- `NOP` (43_system_commands.md R130). -/
def execNop (s : State) : Host.Outcome State Fault Refusal := .next (s.respond 0)

/-- `RDREG r` (43_system_commands.md R131). -/
def execRdreg (r : RegNum) (s : State) : Host.Outcome State Fault Refusal :=
  match CtrlReg.ofNumber r with
  | some reg => .next (s.respond (s.readReg reg))
  | none => .next (s.raise .outOfRange)

/-- `SRST` (43_system_commands.md R132). -/
def execSrst (s : State) : Host.Outcome State Fault Refusal := .next (s.clearRegisters.respond 0)

/-- A word that matches no command fails with `IllegalCommand`, whatever the reason and the state (60_exceptions.md
R164). -/
def execIllegal (_reason : Illegal) (s : State) : Host.Outcome State Fault Refusal := .next (s.raise .illegalCommand)

end Sys2Proof.Machine
end

