-- ==== Sys2Proof/Machine/Dispatch.lean ====
section
/-! DEFINITION. One arm per command of the opcode table (30_encoding.md R83), each one call of its meaning. -/

namespace Sys2Proof.Machine

def exec (i : Instr) (s : State) : Host.Outcome State Fault Refusal :=
  match i with
  | .nop => Sys2Proof.Machine.execNop s
  | .setimg w h => Sys2Proof.Machine.execSetimg w h s
  | .setkrn kh kw => Sys2Proof.Machine.execSetkrn kh kw s
  | .ldw u v n => Sys2Proof.Machine.execLdw u v n s
  | .ldpx a p => Sys2Proof.Machine.execLdpx a p s
  | .rdpx a => Sys2Proof.Machine.execRdpx a s
  | .conv => Sys2Proof.Machine.execConv s
  | .rdreg r => Sys2Proof.Machine.execRdreg r s
  | .rdw u v => Sys2Proof.Machine.execRdw u v s
  | .srst => Sys2Proof.Machine.execSrst s

end Sys2Proof.Machine
end

