-- ==== Sys2Proof/Machine/Step.lean ====
section
/-! DEFINITION. One step of the machine (00_scope.md R16, R18; 70_reset_and_hazards.md R190). -/

namespace Sys2Proof.Machine

/-- What the engine does with a command word (30_encoding.md R74): decodes it, whatever the state, and executes it. -/
def execWord (c : Word) (s : State) : Host.Outcome State Fault Refusal :=
  match decode c with
  | .ok i => exec i s
  | .error reason => execIllegal reason s

/-- One step: the engine accepts the word the host presents, executes it and answers it, all at once (00_scope.md R16);
or the host asserts `rst_n`; or, where the host presents nothing, the engine stays idle as it is (log 1). -/
def step (s : State) : Host.Outcome State Fault Refusal :=
  match s.takeInput with
  | none => .next s
  | some (.command c, s') => execWord c s'
  | some (.reset p, s') => .next (s'.hardReset p)

/-- The state in which the host presents the word next (log 8). -/
def State.withFetchWord (s : State) (nbits w : Nat) : State := s.presentFirst (tableWord nbits w)

end Sys2Proof.Machine
end

