-- ==== Sys2Proof/Laws/Decode.lean ====
section
/-! SUPPORT. The fields of a word and the words of the commands as numbers, so that facts about encodings become linear
arithmetic. -/

namespace Sys2Proof

/-- A field of a word as a number. -/
theorem toNat_extractLsb (c : Word) (hi lo : Nat) :
    (c.extractLsb hi lo).toNat = c.toNat / 2 ^ lo % 2 ^ (hi - lo + 1) := by
  simp [Nat.shiftRight_eq_div_pow]

/-- A concatenation as a number. -/
theorem toNat_concat {m n : Nat} (x : BitVec m) (y : BitVec n) : (x ++ y).toNat = x.toNat * 2 ^ n + y.toNat := by
  rw [BitVec.toNat_append, ← Nat.shiftLeft_add_eq_or_of_lt y.isLt, Nat.shiftLeft_eq]

theorem toNat_opcode (c : Word) : (opcode c).toNat = c.toNat / 2 ^ 28 := by
  have := c.isLt
  rw [opcode, toNat_extractLsb]
  omega

/-! ### The words of the commands -/

theorem encode_setimg_toNat (w h : Dim) :
    (encode (.setimg w h)).toNat = 1 * 2 ^ 28 + w.toNat * 2 ^ 14 + h.toNat := by
  show (0x1#4 ++ w ++ h).toNat = _
  simp only [toNat_concat, BitVec.toNat_ofNat]
  omega

theorem encode_setkrn_toNat (kh kw : Bits3) :
    (encode (.setkrn kh kw)).toNat = 2 * 2 ^ 28 + kh.toNat * 2 ^ 3 + kw.toNat := by
  show (0x2#4 ++ 0#22 ++ kh ++ kw).toNat = _
  simp only [toNat_concat, BitVec.toNat_ofNat]
  omega

theorem encode_ldw_toNat (u v : Bits3) (n : Weight) :
    (encode (.ldw u v n)).toNat = 3 * 2 ^ 28 + u.toNat * 2 ^ 25 + v.toNat * 2 ^ 22 + n.toNat := by
  show (0x3#4 ++ u ++ v ++ n).toNat = _
  simp only [toNat_concat, BitVec.toNat_ofNat]
  omega

theorem encode_ldpx_toNat (a : PixelAddr) (p : Pixel) :
    (encode (.ldpx a p)).toNat = 4 * 2 ^ 28 + p.toNat * 2 ^ 20 + a.toNat := by
  show (0x4#4 ++ p ++ a).toNat = _
  simp only [toNat_concat, BitVec.toNat_ofNat]
  omega

theorem encode_rdpx_toNat (a : PixelAddr) : (encode (.rdpx a)).toNat = 5 * 2 ^ 28 + a.toNat := by
  show (0x5#4 ++ 0#8 ++ a).toNat = _
  simp only [toNat_concat, BitVec.toNat_ofNat]
  omega

theorem encode_rdreg_toNat (r : RegNum) : (encode (.rdreg r)).toNat = 7 * 2 ^ 28 + r.toNat := by
  show (0x7#4 ++ 0#24 ++ r).toNat = _
  simp only [toNat_concat, BitVec.toNat_ofNat]
  omega

theorem encode_rdw_toNat (u v : Bits3) :
    (encode (.rdw u v)).toNat = 8 * 2 ^ 28 + u.toNat * 2 ^ 25 + v.toNat * 2 ^ 22 := by
  show (0x8#4 ++ u ++ v ++ 0#22).toNat = _
  simp only [toNat_concat, BitVec.toNat_ofNat]
  omega

/-- A command with reserved bits is read exactly when they are 0 (30_encoding.md R76). -/
theorem ifReservedZero_ok {n : Nat} {z : BitVec n} {op : BitVec 4} {i j : Instr} :
    ifReservedZero z op i = .ok j ↔ z = 0#n ∧ i = j := by
  unfold ifReservedZero
  split <;> simp_all

theorem opcode_cases (c : Word) : (opcode c).toNat < 16 := (opcode c).isLt

end Sys2Proof
end

