-- ==== Sys2Proof/Laws/PerInstr.lean ====
section
/-! SUPPORT. The per-instruction family `EncodingRow`: the word of a command is hit by its own row of the opcode map
(30_encoding.md R83). -/

namespace Sys2Proof.Laws.EncodingRow

/-- `encode i & mask = pattern` for the row of `i`. -/
def Statement (i : Instr) : Prop := (opcodeRow i).hits (encode i)

theorem nop : Statement .nop := by
  unfold Statement OpcodeRow.hits
  decide

theorem setimg (w h : Dim) : Statement (.setimg w h) := by
  simp only [Statement, OpcodeRow.hits, opcodeRow, encode]
  refine BitVec.eq_of_getLsbD_eq fun i hi => ?_
  simp only [BitVec.getLsbD_and, BitVec.getLsbD_append]
  interval_cases i <;> simp

theorem setkrn (kh kw : Bits3) : Statement (.setkrn kh kw) := by
  simp only [Statement, OpcodeRow.hits, opcodeRow, encode]
  refine BitVec.eq_of_getLsbD_eq fun i hi => ?_
  simp only [BitVec.getLsbD_and, BitVec.getLsbD_append]
  interval_cases i <;> simp

theorem ldw (u v : Bits3) (n : Weight) : Statement (.ldw u v n) := by
  simp only [Statement, OpcodeRow.hits, opcodeRow, encode]
  refine BitVec.eq_of_getLsbD_eq fun i hi => ?_
  simp only [BitVec.getLsbD_and, BitVec.getLsbD_append]
  interval_cases i <;> simp

theorem ldpx (a : PixelAddr) (p : Pixel) : Statement (.ldpx a p) := by
  simp only [Statement, OpcodeRow.hits, opcodeRow, encode]
  refine BitVec.eq_of_getLsbD_eq fun i hi => ?_
  simp only [BitVec.getLsbD_and, BitVec.getLsbD_append]
  interval_cases i <;> simp

theorem rdpx (a : PixelAddr) : Statement (.rdpx a) := by
  simp only [Statement, OpcodeRow.hits, opcodeRow, encode]
  refine BitVec.eq_of_getLsbD_eq fun i hi => ?_
  simp only [BitVec.getLsbD_and, BitVec.getLsbD_append]
  interval_cases i <;> simp

theorem conv : Statement .conv := by
  unfold Statement OpcodeRow.hits
  decide

theorem rdreg (r : RegNum) : Statement (.rdreg r) := by
  simp only [Statement, OpcodeRow.hits, opcodeRow, encode]
  refine BitVec.eq_of_getLsbD_eq fun i hi => ?_
  simp only [BitVec.getLsbD_and, BitVec.getLsbD_append]
  interval_cases i <;> simp

theorem rdw (u v : Bits3) : Statement (.rdw u v) := by
  simp only [Statement, OpcodeRow.hits, opcodeRow, encode]
  refine BitVec.eq_of_getLsbD_eq fun i hi => ?_
  simp only [BitVec.getLsbD_and, BitVec.getLsbD_append]
  interval_cases i <;> simp

theorem srst : Statement .srst := by
  unfold Statement OpcodeRow.hits
  decide

end Sys2Proof.Laws.EncodingRow
end

