-- ==== Sys2Proof/Machine/Assembler.lean ====
section
/-! DEFINITION. The host's assembler (30_encoding.md R80 to R82): weight literals and their quantisation, lines, the
pseudo-instructions, the six kernels of 44_filterbank_host_sequences.md R141, and the text of a line. None of it is in
the engine, which only sees the words. What the rules leave open of the text is log 10. -/

namespace Sys2Proof.Asm

open Sys2Proof.Machine

/-! ### Weight literals (30_encoding.md R81) -/

/-- A weight as it is written: `#n`, or a real number as a fraction. -/
inductive WeightLit where
  | raw (n : Int)
  | real (num : Int) (den : Nat)
  deriving DecidableEq, Repr

/-- `sign(x) * floor(|x| * 2^16 + 1/2)` for `x = num / den`: round to nearest, ties away from zero. -/
def quantise (num : Int) (den : Nat) : Int :=
  num.sign * (((2 * num.natAbs * 2 ^ Config.wFrac + den) / (2 * den) : Nat) : Int)

/-- The 22-bit field of an integer; none outside `[-2097152, 2097151]`. -/
def weightField (n : Int) : Option Weight :=
  if -2097152 ≤ n ∧ n ≤ 2097151 then some (BitVec.ofInt 22 n) else none

/-- The field of a literal; none where the assembler rejects the line. -/
def WeightLit.field : WeightLit → Option Weight
  | .raw n => weightField n
  | .real num den => if den = 0 then none else weightField (quantise num den)

/-! ### Lines (30_encoding.md R80, R82) -/

/-- A line: a command with its operands as numbers, in the order they are written, or a pseudo-instruction. -/
inductive Line where
  | nop
  | setimg (w h : Nat)
  | setkrn (kh kw : Nat)
  | ldw (u v : Nat) (x : WeightLit)
  | ldpx (a p : Nat)
  | rdpx (a : Nat)
  | conv
  | rdreg (r : Nat)
  | rdregNamed (r : CtrlReg)
  | rdw (u v : Nat)
  | srst
  | kernel (kh kw : Nat) (weights : List WeightLit)
  | image (w h : Nat) (pixels : List Nat)
  | readout (m : Nat)
  | kbox
  | ksharp
  | khigh
  | klow
  | ksobelx
  | ksobely
  deriving DecidableEq, Repr

/-- The number of a register name (10_state.md R29). -/
def regNumber : CtrlReg → RegNum
  | .imgW => 0
  | .imgH => 1
  | .kH => 2
  | .kW => 3
  | .outW => 4
  | .outH => 5
  | .status => 6
  | .id => 7

/-- An unsigned operand in its field; none where it does not fit (log 10). -/
def natField (width n : Nat) : Option (BitVec width) := if n < 2 ^ width then some (BitVec.ofNat width n) else none

/-- The weights of the real-valued kernels are written as fractions of 1 or 9. -/
def ninths (ns : List Int) : List WeightLit := ns.map fun n => .real n 9

/-- Integer weights. -/
def integers (ns : List Int) : List WeightLit := ns.map fun n => .real n 1

/-- Box Blur: "3×3, all weights 1/9" (44_filterbank_host_sequences.md R141). -/
def boxWeights : List WeightLit := ninths [1, 1, 1, 1, 1, 1, 1, 1, 1]

/-- Sharpen: `[[0,−1,0],[−1,5,−1],[0,−1,0]]` (R141). -/
def sharpWeights : List WeightLit := integers [0, -1, 0, -1, 5, -1, 0, -1, 0]

/-- High Pass: `[[−7/9,−7/9,0],[0,5,0],[0,−7/9,−7/9]]` (R141). -/
def highWeights : List WeightLit := ninths [-7, -7, 0, 0, 45, 0, 0, -7, -7]

/-- Low Pass: all zero except the centre, 5/9 (R141). -/
def lowWeights : List WeightLit := ninths [0, 0, 0, 0, 5, 0, 0, 0, 0]

/-- Sobel `Gx = [[1,0,−1],[2,0,−2],[1,0,−1]]` (R141). -/
def sobelXWeights : List WeightLit := integers [1, 0, -1, 2, 0, -2, 1, 0, -1]

/-- Sobel `Gy = [[1,2,1],[0,0,0],[−1,−2,−1]]` (R141). -/
def sobelYWeights : List WeightLit := integers [1, 2, 1, 0, 0, 0, -1, -2, -1]

/-- The weight of position `m` of a row-major list with `kw` columns, as an `LDW`. -/
def ldwAt (kw m : Nat) (x : WeightLit) : Option Instr := do
  return .ldw (← natField 3 (m / kw)) (← natField 3 (m % kw)) (← x.field)

/-- `LDPX a, p` (address first, value second). -/
def ldpxAt (a p : Nat) : Option Instr := do
  return .ldpx (← natField 20 a) (← natField 8 p)

/-- `SETKRN kh, kw`, then one `LDW` a weight, row-major; the list has `kh * kw` weights (30_encoding.md R82). -/
def kernelCommands (kh kw : Nat) (xs : List WeightLit) : Option (List Instr) := do
  if xs.length ≠ kh * kw then none
  else
    let set : Instr := .setkrn (← natField 3 kh) (← natField 3 kw)
    return set :: (← (xs.zipIdx.mapM fun x => ldwAt kw x.2 x.1))

/-- `SETIMG w, h`, then one `LDPX` a pixel, row-major; the list has `w * h` pixels (30_encoding.md R82). -/
def imageCommands (w h : Nat) (ps : List Nat) : Option (List Instr) := do
  if ps.length ≠ w * h then none
  else
    let set : Instr := .setimg (← natField 14 w) (← natField 14 h)
    return set :: (← (ps.zipIdx.mapM fun p => ldpxAt p.2 p.1))

/-- `RDPX 0` to `RDPX m-1` (30_encoding.md R82). -/
def readoutCommands (m : Nat) : Option (List Instr) :=
  (List.range m).mapM fun a => (natField 20 a).map Instr.rdpx

/-- The commands of a line; none where the assembler rejects it. -/
def assemble : Line → Option (List Instr)
  | .nop => some [.nop]
  | .setimg w h => do return [.setimg (← natField 14 w) (← natField 14 h)]
  | .setkrn kh kw => do return [.setkrn (← natField 3 kh) (← natField 3 kw)]
  | .ldw u v x => do return [.ldw (← natField 3 u) (← natField 3 v) (← x.field)]
  | .ldpx a p => do return [← ldpxAt a p]
  | .rdpx a => do return [.rdpx (← natField 20 a)]
  | .conv => some [.conv]
  | .rdreg r => do return [.rdreg (← natField 4 r)]
  | .rdregNamed r => some [.rdreg (regNumber r)]
  | .rdw u v => do return [.rdw (← natField 3 u) (← natField 3 v)]
  | .srst => some [.srst]
  | .kernel kh kw xs => kernelCommands kh kw xs
  | .image w h ps => imageCommands w h ps
  | .readout m => readoutCommands m
  | .kbox => kernelCommands 3 3 boxWeights
  | .ksharp => kernelCommands 3 3 sharpWeights
  | .khigh => kernelCommands 3 3 highWeights
  | .klow => kernelCommands 3 3 lowWeights
  | .ksobelx => kernelCommands 3 3 sobelXWeights
  | .ksobely => kernelCommands 3 3 sobelYWeights

/-- The command words of a program. -/
def program (lines : List Line) : Option (List Word) := do
  return (← lines.mapM assemble).flatten.map encode

/-- A line of a source text: a line of R80 or R82, or a word given as its number, `.word n`. R80 defines no `.word` line;
program P4 of 95_test_vectors.md (steps 24 to 26) writes one to send a word that is no command, which no line of R80 can
name (DEDUCED, log 10). -/
inductive Item where
  | line (l : Line)
  | word (n : Nat)
  deriving DecidableEq, Repr

/-- The command words of a line of a source text; a `.word` is sent as it stands, whether or not it is a command. -/
def Item.words : Item → Option (List Word)
  | .line l => program [l]
  | .word n => (natField 32 n).map ([·])

/-! ### The text of a line (30_encoding.md R80) -/

/-- The pieces between the separators. -/
def pieces (sep : Char) : List Char → List (List Char)
  | [] => [[]]
  | c :: cs =>
    if c = sep then [] :: pieces sep cs
    else
      match pieces sep cs with
      | w :: ws => (c :: w) :: ws
      | [] => [[c]]

/-- Without blanks at either end. -/
def trim (cs : List Char) : List Char :=
  let blank : Char → Bool := fun c => c == ' ' || c == '\t'
  ((cs.dropWhile blank).reverse.dropWhile blank).reverse

/-- The value of a digit of the base. -/
def digit (base : Nat) (c : Char) : Option Nat :=
  let n := c.toNat
  let v :=
    if 48 ≤ n ∧ n ≤ 57 then n - 48
    else if 65 ≤ n ∧ n ≤ 70 then n - 55
    else if 97 ≤ n ∧ n ≤ 102 then n - 87
    else base
  if v < base then some v else none

/-- The number of a non-empty list of digits. -/
def digits (base : Nat) (cs : List Char) : Option Nat :=
  if cs = [] then none else cs.foldlM (fun n c => (digit base c).map (base * n + ·)) 0

/-- Decimal, or hexadecimal with `0x`. -/
def natural : List Char → Option Nat
  | '0' :: 'x' :: cs => digits 16 cs
  | cs => digits 10 cs

/-- A sign and what it signs: one leading `-`, or none. A leading `+` is no sign, and so refused (DESIGN CHOICE, log 10). -/
def signed : List Char → Int × List Char
  | '-' :: cs => (-1, cs)
  | cs => (1, cs)

/-- An integer, a decimal such as `-0.5`, or a fraction such as `1/9`, with a leading `-` or none (30_encoding.md R81). Both
parts of a fraction are unsigned integers: a signed denominator and a decimal inside a fraction (`0.5/9`) are
refused (DESIGN CHOICE, log 10). -/
def realLit (cs : List Char) : Option WeightLit :=
  let (sign, body) := signed cs
  match pieces '/' body, pieces '.' body with
  | [p, q], _ => do return .real (sign * (← natural p)) (← natural q)
  | _, [whole, frac] => do return .real (sign * (← digits 10 (whole ++ frac))) (10 ^ frac.length)
  | _, _ => do return .real (sign * (← natural body)) 1

/-- The `weight` operand (30_encoding.md R81). -/
def weightLit : List Char → Option WeightLit
  | '#' :: cs => do return .raw ((signed cs).1 * (← natural (signed cs).2))
  | cs => realLit cs

/-- The register of a name (10_state.md R29). -/
def regNamed (cs : List Char) : Option CtrlReg :=
  match String.ofList cs with
  | "IMG_W" => some .imgW
  | "IMG_H" => some .imgH
  | "K_H" => some .kH
  | "K_W" => some .kW
  | "OUT_W" => some .outW
  | "OUT_H" => some .outH
  | "STATUS" => some .status
  | "ID" => some .id
  | _ => none

/-- The pieces between commas; none for a blank text. -/
def commaList (cs : List Char) : List (List Char) := if trim cs = [] then [] else (pieces ',' cs).map trim

/-- The operands of a line: those outside brackets, and the bracketed list where there is one, which comes last, after a
comma (30_encoding.md R82). `[]` is the list without entries (DESIGN CHOICE, log 10). -/
def operands (cs : List Char) : Option (List (List Char) × Option (List (List Char))) :=
  match pieces '[' cs with
  | [before, list] =>
    match pieces ']' list, (pieces ',' before).map trim |>.reverse with
    | [inside, rest], [] :: front => if trim rest = [] then some (front.reverse, some (commaList inside)) else none
    | _, _ => none
  | _ => some (commaList cs, none)

/-- The line of a mnemonic and its operands. `KERNEL` and `IMAGE` take a bracketed list, also where it has no entry
(DESIGN CHOICE, log 10); the other lines take none. -/
def lineOf (mnemonic : String) (ops : List (List Char)) (list : Option (List (List Char))) : Option Line :=
  match mnemonic, ops, list with
  | "NOP", [], none => some .nop
  | "SETIMG", [w, h], none => do return .setimg (← natural w) (← natural h)
  | "SETKRN", [kh, kw], none => do return .setkrn (← natural kh) (← natural kw)
  | "LDW", [u, v, x], none => do return .ldw (← natural u) (← natural v) (← weightLit x)
  | "LDPX", [a, p], none => do return .ldpx (← natural a) (← natural p)
  | "RDPX", [a], none => do return .rdpx (← natural a)
  | "CONV", [], none => some .conv
  | "RDREG", [r], none => ((natural r).map Line.rdreg).orElse fun _ => (regNamed r).map Line.rdregNamed
  | "RDW", [u, v], none => do return .rdw (← natural u) (← natural v)
  | "SRST", [], none => some .srst
  | "KERNEL", [kh, kw], some xs => do return .kernel (← natural kh) (← natural kw) (← xs.mapM weightLit)
  | "IMAGE", [w, h], some ps => do return .image (← natural w) (← natural h) (← ps.mapM natural)
  | "READOUT", [m], none => do return .readout (← natural m)
  | "KBOX", [], none => some .kbox
  | "KSHARP", [], none => some .ksharp
  | "KHIGH", [], none => some .khigh
  | "KLOW", [], none => some .klow
  | "KSOBELX", [], none => some .ksobelx
  | "KSOBELY", [], none => some .ksobely
  | _, _, _ => none

/-- The line of a source text of a mnemonic and its operands: `.word n` (DEDUCED, log 10), or a line of R80 or R82. -/
def itemOf (mnemonic : String) (ops : List (List Char)) (list : Option (List (List Char))) : Option Item :=
  match mnemonic, ops, list with
  | ".word", [n], none => (natural n).map .word
  | _, _, _ => (lineOf mnemonic ops list).map .line

/-- A line of text: a comment starts at `;`, the mnemonic ends at the first space, and its operands follow. Nothing for a
blank line; none where the line is refused (log 10). -/
def parseLine (text : List Char) : Option (List Item) := do
  let code := trim (text.takeWhile (· != ';'))
  if code = [] then return []
  else
    let mnemonic := code.takeWhile (· != ' ')
    let (ops, list) ← operands (code.drop mnemonic.length)
    return [← itemOf (String.ofList mnemonic) ops list]

/-- The command words of a source text, given by its lines. -/
def assembleText (text : List (List Char)) : Option (List Word) := do
  return (← (← text.mapM parseLine).flatten.mapM Item.words).flatten

end Sys2Proof.Asm
end

