-- ==== Sys2Proof/Machine/HostFloat.lean ====
section
/-! DEFINITION. The HOST's floating point, as far as the Sobel combination uses it (44_filterbank_host_sequences.md R144,
92_eei_decisions.md D19): the exact result of `sqrt`, `/` or `*` where it is a number of the format, else one of its two
neighbours there. Which numbers the format has and which neighbour is taken is free (log 13). No engine rule uses any of
this. -/

namespace Sys2Proof.HostFloat

/-- The result between the grid points `k / steps` and `(k + 1) / steps`: the lower one where it is exact. -/
def gridPoint (steps k : Nat) (exact up : Bool) : ℚ := ((if up && !exact then k + 1 else k : Nat) : ℚ) / (steps : ℚ)

/-- `sqrt(m)` rounded to the multiples of `1 / steps`. -/
def roundSqrt (steps : Nat) (up : Bool) (m : Nat) : ℚ :=
  gridPoint steps (Nat.sqrt (m * steps ^ 2)) (Nat.sqrt (m * steps ^ 2) ^ 2 == m * steps ^ 2) up

/-- `x ≥ 0` rounded to the multiples of `1 / steps`. -/
def roundRat (steps : Nat) (up : Bool) (x : ℚ) : ℚ :=
  gridPoint steps ⌊x * steps⌋₊ (decide ((⌊x * steps⌋₊ : ℚ) = x * steps)) up

/-- The steps per unit that the coarsest admitted format has near `sqrt(m)`. -/
def minSqrtSteps (m : Nat) : Nat := Nat.sqrt (Config.hostPrecision ^ 2 / m) + 1

/-- The steps per unit that the coarsest admitted format has near `x`. -/
def minSteps (x : ℚ) : Nat := ⌈(Config.hostPrecision : ℚ) / x⌉₊

/-- The host's `sqrt`. -/
def sqrt (m : Nat) : ℚ := roundSqrt (minSqrtSteps m + Config.hostSqrtSteps m) (Config.hostSqrtUp m) m

/-- The host's result where `x` is the exact one. -/
def round (x : ℚ) : ℚ := roundRat (minSteps x + Config.hostSteps x) (Config.hostUp x) x

/-- The host's `/`. -/
def div (x y : ℚ) : ℚ := round (x / y)

/-- The host's `*`. -/
def mul (x y : ℚ) : ℚ := round (x * y)

/-- Clamp to `[0, 255]`, then truncate: "the same clamp-then-truncate conversion as the engine" (R144). -/
def toPixel (x : ℚ) : Pixel := BitVec.ofNat 8 ⌊min (max x 0) 255⌋₊

end Sys2Proof.HostFloat
end

