-- ==== Sys2Proof/Machine/Run.lean ====
section
/-! DEFINITION. A run: the fold of the engine's step over the list of command words the host sends (00_scope.md R18). -/

namespace Sys2Proof.Machine

/-- The state after the words of the list, one after the other; none where the engine stops. -/
def runWords : List Word → State → Option State
  | [], s => some s
  | c :: cs, s =>
    match execWord c s with
    | .next t => runWords cs t
    | .fault _ => none
    | .refused _ => none

/-- The responses delivered between two states of a run. -/
def newResponses (s t : State) : List Word := t.responses.drop s.responses.length

end Sys2Proof.Machine
end

