-- ==== Sys2Proof/Machine/FilterBank.lean ====
section
/-! DEFINITION. The FilterBank, host software over the engine (44_filterbank_host_sequences.md; out of the hardware by
00_scope.md R5): the filter table, one pass of a filter as a command sequence, the Sobel combination in the host's floating
point (log 13), and `apply_all`. What the caller decides, and in which order the commands go out, is log 11. It adds no
state and no command to the engine. -/

namespace Sys2Proof.FilterBank

open Sys2Proof.Machine Sys2Proof.Asm

/-- How the engine's outputs become the filter's result (44_filterbank_host_sequences.md R149). -/
inductive Combination where
  /-- The engine's output, unchanged (R142). -/
  | linear
  /-- The gradient magnitude of two outputs (R143 to R145). -/
  | sobel
  deriving DecidableEq, Repr

/-- A named filter: its 3x3 kernels and the combination of their outputs (R140, R141, R149). -/
structure Filter where
  name : String
  kernels : List (List WeightLit)
  combination : Combination
  deriving DecidableEq, Repr

/-- The five filters in the order of `apply_all` (R140, R141, R146). -/
def filters : List Filter :=
  [⟨"Box Blur", [boxWeights], .linear⟩,
   ⟨"Edge Detection", [sobelXWeights, sobelYWeights], .sobel⟩,
   ⟨"Sharpen", [sharpWeights], .linear⟩,
   ⟨"High Pass", [highWeights], .linear⟩,
   ⟨"Low Pass", [lowWeights], .linear⟩]

/-- A PixelBuffer: row-major samples with explicit width and height (00_scope.md glossary). -/
structure PixelBuffer where
  width : Nat
  height : Nat
  samples : List Pixel
  deriving DecidableEq, Repr

/-- A FilterResult: the buffer, or the code of the engine's error, for the caller to decide on (R148); `degenerate` is the
warning `DegenerateGradient` beside an all-zero buffer (R145). -/
structure FilterResult where
  name : String
  outcome : Except (BitVec 4) PixelBuffer
  degenerate : Bool
  deriving DecidableEq, Repr

/-- What the caller does about a filter that failed (R148: "who decides whether to skip that filter or abort the
batch"). -/
inductive OnError where
  | skip
  | abort
  deriving DecidableEq, Repr

/-- The caller: what it decides about the filter of a name that failed with an error code, when it has the results `done`
so far (R148). Any decision at any failure is a caller. -/
abbrev Caller := (done : List FilterResult) → (name : String) → (error : BitVec 4) → OnError

/-! ### The Sobel combination (R144, R145) -/

/-- `edge_x² + edge_y²` of each pixel, an exact integer (R144). -/
def magnitudeSquares (ex ey : List Pixel) : List Nat := List.zipWith (fun x y => x.toNat ^ 2 + y.toNat ^ 2) ex ey

/-- Steps 2 and 3 for a pixel whose sum of squares is `m` where the largest one is `top > 0`: the magnitude `sqrt(m)`,
divided by the largest magnitude, scaled by 255, clipped and converted (R144). The largest magnitude is the square root
of the largest sum: a square root and its rounding never reverse an order (DEDUCED, log 13). -/
def sobelSample (m top : Nat) : Pixel :=
  HostFloat.toPixel (HostFloat.mul (HostFloat.div (HostFloat.sqrt m) (HostFloat.sqrt top)) 255)

/-- Steps 2 to 4 of Sobel Edge Detection (R144, R145): the normalised samples; all zero, with the warning, where the
maximum is 0. -/
def sobelCombine (ex ey : List Pixel) : List Pixel × Bool :=
  let ms := magnitudeSquares ex ey
  let top := ms.foldl max 0
  if top = 0 then (ms.map fun _ => 0, true) else (ms.map fun m => sobelSample m top, false)

/-! ### Filters on the engine (R142, R143, R148) -/

/-- The first error among responses; none where every one has `err = 0`. -/
def firstErrorOf (rs : List Word) : Option (BitVec 4) := (rs.map rspError).find? (· != 0)

/-- The samples a host reads from the responses of a `READOUT`. -/
def samplesOf (rs : List Word) : List Pixel := rs.map fun r => r.extractLsb 7 0

/-- The host sends the words of a program and reads their responses: the first error, or the responses, and the state
after them; none where the assembler rejects the program or the engine stops. -/
def sendProgram (lines : List Line) (s : State) : Option (Except (BitVec 4) (List Word) × State) := do
  let t ← runWords (← program lines) s
  match firstErrorOf (newResponses s t) with
  | some e => return (.error e, t)
  | none => return (.ok (newResponses s t), t)

/-- One pass (R142): the kernel, `CONV`, and, where neither was answered with an error, `READOUT` of the `m` pixels. -/
def pass (kernel : List WeightLit) (m : Nat) (s : State) : Option (Except (BitVec 4) (List Pixel) × State) := do
  match ← sendProgram [.kernel 3 3 kernel, .conv] s with
  | (.error e, t) => return (.error e, t)
  | (.ok _, t) =>
    let (answers, t') ← sendProgram [.readout m] t
    return (answers.map samplesOf, t')

/-- The passes of a list of kernels, one after the other, up to the first that fails. -/
def passes : List (List WeightLit) → Nat → State → Option (Except (BitVec 4) (List (List Pixel)) × State)
  | [], _, s => some (.ok [], s)
  | k :: ks, m, s => do
    match ← pass k m s with
    | (.error e, t) => return (.error e, t)
    | (.ok out, t) =>
      let (outs, t') ← passes ks m t
      return (outs.map (out :: ·), t')

/-- The result of a filter from its passes' outputs: the output of its one kernel unchanged (R142), or the combination of
its two (R143 to R145). -/
def resultOf (f : Filter) (w h : Nat) (outs : List (List Pixel)) : FilterResult :=
  match f.combination with
  | .linear => ⟨f.name, .ok ⟨w, h, outs.getD 0 []⟩, false⟩
  | .sobel =>
    let (samples, degenerate) := sobelCombine (outs.getD 0 []) (outs.getD 1 [])
    ⟨f.name, .ok ⟨w, h, samples⟩, degenerate⟩

/-- The filters of a list on the image already loaded, after the results `done`, one after the other in the order of the
list, although R147 allows any order of their commands (DESIGN CHOICE, log 11). The error of a filter that fails is passed
to the caller, who decides whether to skip that filter or abort the batch (R148); a skipped filter keeps its place with the
error code and no buffer, an aborted batch gives the code and no results (DESIGN CHOICE, log 11). -/
def applyFilters (caller : Caller) (done : List FilterResult) :
    List Filter → Nat → Nat → State → Option (Except (BitVec 4) (List FilterResult) × State)
  | [], _, _, s => some (.ok done, s)
  | f :: fs, w, h, s => do
    match ← passes f.kernels (w * h) s with
    | (.ok outs, t) => applyFilters caller (done ++ [resultOf f w h outs]) fs w h t
    | (.error e, t) =>
      match caller done f.name e with
      | .skip => applyFilters caller (done ++ [⟨f.name, .error e, false⟩]) fs w h t
      | .abort => return (.error e, t)

/-- `apply_all` (R146): an image without pixels is rejected here with `EmptyImage`, before it reaches the engine
(DEDUCED from R148, log 11); the image is loaded once (R142); the first result, "Input", is a copy of it, the engine not
involved; then the five filters, their commands in the order of `filters` (DESIGN CHOICE, log 11: R147 fixes only the
order of the results). Where loading is answered with an error, that error; none where the assembler has no words for
the image (no list of `w * h` samples, or too large for the fields of `SETIMG` and `LDPX`), or the engine stops (log
11). -/
def applyAll (caller : Caller) (img : PixelBuffer) (s : State) :
    Option (Except (BitVec 4) (List FilterResult) × State) :=
  if img.width = 0 ∨ img.height = 0 then some (.error ErrorCode.emptyImage.code, s)
  else do
    match ← sendProgram [.image img.width img.height (img.samples.map BitVec.toNat)] s with
    | (.error e, t) => return (.error e, t)
    | (.ok _, t) => applyFilters caller [⟨"Input", .ok img, false⟩] filters img.width img.height t

end Sys2Proof.FilterBank
end

