-- ==== Sys2Proof/Safety.lean ====
section
/-! DEFINITION. The terms claims are stated in: the invariants of 10_state.md R30 and of the memories, and a run in which
nothing went wrong (60_exceptions.md R179). -/

namespace Sys2Proof.Machine

/-- A value the kernel dimension registers hold once a kernel has been constructed (10_state.md R24). -/
def legalKernelDim (k : Bits3) : Prop := k = 1 ∨ k = 3 ∨ k = 5

/-- The five invariants of 10_state.md R30, (a) to (e). -/
structure State.RegistersLegal (s : State) : Prop where
  imageFits : s.imgW.toNat * s.imgH.toNat ≤ Config.bufPixels
  kernelDims : (s.kH = 0 ∧ s.kW = 0) ∨ (legalKernelDim s.kH ∧ legalKernelDim s.kW)
  outputFits : s.outW.toNat * s.outH.toNat ≤ Config.bufPixels
  validOutput : s.ovalid = true → 1 ≤ s.outW.toNat ∧ 1 ≤ s.outH.toNat
  noOutput : s.ovalid = false → s.outW = 0 ∧ s.outH = 0

/-- The pixel memories are in canonical form, and while `OVALID = 1` every cell of the output image has been written
(10_state.md R26: `OVALID = 1` means that `OBUF` holds a complete result). -/
structure State.MemoriesLegal (s : State) : Prop where
  ibufWf : Memory.wf s.ibuf = true
  obufWf : Memory.wf s.obuf = true
  outputWritten : s.ovalid = true → ∀ a, a < s.outW.toNat * s.outH.toNat → (Memory.lookup s.obuf a).isSome = true

/-- The invariant of the machine: what holds in every state a run from reset reaches. -/
structure State.Inv (s : State) : Prop where
  registers : s.RegistersLegal
  memories : s.MemoriesLegal

/-- Every response delivered so far has `err = 0` (60_exceptions.md R179: "nothing went wrong"). -/
def State.NothingWentWrong (s : State) : Prop := ∀ r ∈ s.responses, rspError r = 0

/-- The state `t` is `s` but for the responses delivered: nothing of 10_state.md R20 has changed, nor what the host
presents. -/
def State.SameButResponses (s t : State) : Prop := { t with responses := s.responses } = s

end Sys2Proof.Machine
end

