-- ==== Sys2Proof/WellFormed.lean ====
section
/-! DEFINITION. Which commands have operands within what the block holds (30_encoding.md R77, 60_exceptions.md R161 and
R166). Every `Instr` is a legal encoding, because its operands have the widths of their fields: a command that is not
well formed here still decodes and runs, and its run is the error its rule names. -/

namespace Sys2Proof

/-- A kernel dimension the block accepts: 1, 3 or 5 (00_scope.md R9). -/
def kernelDimOk (k : Bits3) : Bool := k.toNat % 2 == 1 && decide (k.toNat ≤ Config.kMax)

/-- An image the pixel memories hold (00_scope.md R13, 40_configuration_commands.md R90). -/
def imageFits (w h : Dim) : Bool := decide (w.toNat * h.toNat ≤ Config.bufPixels)

/-- A row or column of the kernel store: 0 to 4 (10_state.md R21). -/
def kernelIndexOk (u : Bits3) : Bool := decide (u.toNat < Config.kMax)

/-- The operands of the command, looked at alone, are within the capacities of the block. (The address of `RDPX` is
checked against the state, not here.) -/
def Instr.wellFormed : Instr → Bool
  | .nop => true
  | .setimg w h => imageFits w h
  | .setkrn kh kw => kernelDimOk kh && kernelDimOk kw
  | .ldw u v _ => kernelIndexOk u && kernelIndexOk v
  | .ldpx _ _ => true
  | .rdpx _ => true
  | .conv => true
  | .rdreg r => decide (r.toNat < 8)
  | .rdw u v => kernelIndexOk u && kernelIndexOk v
  | .srst => true

end Sys2Proof
end

