-- ==== Sys2Proof/Certificates/Slice0/Obligations.lean ====
section
/-! DEFINITION. The statements for the provers. Each docstring names the rules of spec/ it formalises; a clause that rests
on a choice of the model names its log entry. The first section transcribes the pseudocode of 42_convolve.md R119 loop by
loop, apart from the model's own `CONV`, and the order of the error checks of 60_exceptions.md R168. -/

open Sys2Proof Sys2Proof.Machine

/-! ### The spec's own text, transcribed -/

/-- `sint(K[u][v])` for the loop counters `u`, `v` (0 where there is no such weight, which no legal kernel reads). -/
def Sys2Proof.Spec.weightAt (s : State) (u v : Nat) : Int :=
  if h : u < 5 ∧ v < 5 then (s.weight ⟨u, h.1⟩ ⟨v, h.2⟩).toInt else 0

/-- The variable `s` of the pseudocode: the pixel at row `y`, column `x`, or 0 outside the image (R119, R112). -/
def Sys2Proof.Spec.neighbour (s : State) (y x : Int) : Int :=
  if 0 ≤ y ∧ y < s.imgH.toNat ∧ 0 ≤ x ∧ x < s.imgW.toNat then
    ((s.readIbuf (y * s.imgW.toNat + x).toNat).toNat : Int)
  else 0

/-- The two inner loops: `S` after them, from `S = 0` (R119, R111). -/
def Sys2Proof.Spec.sumLoops (s : State) (i j : Nat) : Int :=
  (List.range s.kH.toNat).foldl (init := 0) fun S u =>
    (List.range s.kW.toNat).foldl (init := S) fun S v =>
      S + Sys2Proof.Spec.weightAt s u v *
        Sys2Proof.Spec.neighbour s ((i : Int) + u - (s.kH.toNat / 2 : Nat)) ((j : Int) + v - (s.kW.toNat / 2 : Nat))

/-- The output value `o` (R119): 0 if `S < 0`, 255 if `S >= 255 * 65536`, else `S >> 16`. -/
def Sys2Proof.Spec.clampTruncate (S : Int) : Pixel :=
  if S < 0 then 0 else if 255 * 65536 ≤ S then 255 else BitVec.ofNat 8 (S.toNat / 65536)

/-- `OBUF` after the two outer loops, each turn one `MemWrite(OBUF, i * W + j, 1, o)` (R119). -/
def Sys2Proof.Spec.obufLoops (s : State) : Memory :=
  (List.range s.imgH.toNat).foldl (init := s.obuf) fun m i =>
    (List.range s.imgW.toNat).foldl (init := m) fun m j =>
      Memory.write m (i * s.imgW.toNat + j) (Sys2Proof.Spec.clampTruncate (Sys2Proof.Spec.sumLoops s i j))

/-- The first failing check of a command in state `s`, in the order of its pseudocode (60_exceptions.md R168 (2)). -/
def Sys2Proof.Spec.firstError (s : State) : Instr → ErrorCode
  | .nop => .ok
  | .setimg w h => if 1048576 < w.toNat * h.toNat then .outOfRange else .ok
  | .setkrn kh kw =>
    if kh.toNat % 2 = 0 ∨ kw.toNat % 2 = 0 then .invalidKernel
    else if kh.toNat = 7 ∨ kw.toNat = 7 then .outOfRange
    else .ok
  | .ldw u v _ => if 4 < u.toNat ∨ 4 < v.toNat then .outOfRange else .ok
  | .ldpx _ _ => .ok
  | .rdpx a =>
    if s.ovalid = false then .noResult
    else if s.outW.toNat * s.outH.toNat ≤ a.toNat then .outOfRange
    else .ok
  | .conv =>
    if s.kH = 0 ∨ s.kW = 0 then .invalidKernel else if s.imgW = 0 ∨ s.imgH = 0 then .emptyImage else .ok
  | .rdreg r => if 8 ≤ r.toNat then .outOfRange else .ok
  | .rdw u v => if 4 < u.toNat ∨ 4 < v.toNat then .outOfRange else .ok
  | .srst => .ok

/-- The state a `CONV` may legally run in: a constructed kernel and a non-empty image that fits. -/
def Sys2Proof.Spec.ConvReady (s : State) : Prop :=
  legalKernelDim s.kH ∧ legalKernelDim s.kW ∧ 1 ≤ s.imgW.toNat ∧ 1 ≤ s.imgH.toNat ∧
    s.imgW.toNat * s.imgH.toNat ≤ 1048576

/-- The bits of the "zero" rows of 30_encoding.md R71, for each opcode whose format has one. -/
def Sys2Proof.Spec.reservedBits : List (BitVec 4 × Word) :=
  [(0x0, 0x0FFFFFFF), (0x2, 0x0FFFFFC0), (0x5, 0x0FF00000), (0x6, 0x0FFFFFFF), (0x7, 0x0FFFFFF0), (0x8, 0x003FFFFF),
   (0x9, 0x0FFFFFFF)]

/-! ### Encoding and decoding -/

/-- No bit of an encoding is dropped: decoding the word of any command, every operand at every value of its field, gives
the command back (30_encoding.md R71, R73). -/
def Obligations.DecodeOfEncodeIsIdentity : Prop := ∀ i : Instr, decode (encode i) = .ok i

/-- Each legal word has one meaning: the word of the command it decodes to is the word itself. -/
def Obligations.EncodeOfDecodeIsIdentity : Prop := ∀ (c : Word) (i : Instr), decode c = .ok i → encode i = c

/-- R74: every word either is hit by exactly one of the ten rows, and is then that row's command and executed by it, or
by none, and then fails with `IllegalCommand`, changing nothing but the response. -/
def Obligations.DecoderFollowsOpcodeTable : Prop :=
  ∀ (c : Word) (s : State),
    (∃ row ∈ opcodeTable, row.hits c ∧ (∀ row' ∈ opcodeTable, row'.hits c → row' = row) ∧
      ∃ i, decode c = .ok i ∧ opcodeRow i = row ∧ execWord c s = exec i s) ∨
    ((∀ row ∈ opcodeTable, ¬ row.hits c) ∧
      execWord c s = .next { s with responses := s.responses ++ [0x40000000#32] })

/-- R75: a word with opcode `0xA` to `0xF` is illegal, whatever its other bits and whatever the state. -/
def Obligations.ReservedOpcodesAreIllegal : Prop :=
  ∀ (c : Word) (s : State), 0xA ≤ (c.extractLsb 31 28).toNat →
    (∀ i, decode c ≠ .ok i) ∧ execWord c s = .next { s with responses := s.responses ++ [0x40000000#32] }

/-- R76: a word of a format with reserved bits that has a 1 in one of them is illegal; formats D, W and P have none, so
that every word of theirs is a command. -/
def Obligations.ReservedBitsAreIllegal : Prop :=
  (∀ (c : Word) (s : State) (op : BitVec 4) (mask : Word), (op, mask) ∈ Spec.reservedBits →
    c.extractLsb 31 28 = op → c &&& mask ≠ 0 →
    (∀ i, decode c ≠ .ok i) ∧ execWord c s = .next { s with responses := s.responses ++ [0x40000000#32] }) ∧
  (∀ c : Word, c.extractLsb 31 28 = 0x1#4 ∨ c.extractLsb 31 28 = 0x3#4 ∨ c.extractLsb 31 28 = 0x4#4 →
    ∃ i, decode c = .ok i)

/-- The words of the table of 30_encoding.md R80 decode to the commands it prints beside them. -/
def Obligations.WordsOfTheSyntaxTableDecode : Prop :=
  decode 0x00000000#32 = .ok .nop ∧ decode 0x10010002#32 = .ok (.setimg 4 2) ∧
  decode 0x2000001B#32 = .ok (.setkrn 3 3) ∧ decode 0x32450000#32 = .ok (.ldw 1 1 327680) ∧
  decode 0x4FF00003#32 = .ok (.ldpx 3 255) ∧ decode 0x50000003#32 = .ok (.rdpx 3) ∧
  decode 0x60000000#32 = .ok .conv ∧ decode 0x70000006#32 = .ok (.rdreg 6) ∧
  decode 0x82400000#32 = .ok (.rdw 1 1) ∧ decode 0x90000000#32 = .ok .srst

/-- R77: an operand that is encodable but out of range is a legal encoding of a command, which then fails, with
`OutOfRange` or `InvalidKernel`, changing nothing. (`RDPX`, whose range depends on the state, is `RdpxEffect`.) -/
def Obligations.OutOfRangeOperandsDecodeAndFail : Prop :=
  ∀ (i : Instr) (s : State), i.wellFormed = false →
    decode (encode i) = .ok i ∧
    (exec i s = .next { s with responses := s.responses ++ [0x50000000#32] } ∨
      ((∃ kh kw, i = .setkrn kh kw) ∧ exec i s = .next { s with responses := s.responses ++ [0x10000000#32] }))

/-- 20_memory.md R52: a file of command words is little-endian: bytes `4k` to `4k + 3` hold bits 7:0, 15:8, 23:16 and
31:24 of word `k`, it has no other bytes, and reading it gives the words back. -/
def Obligations.CommandFilesAreLittleEndian : Prop :=
  ∀ cs : List Word,
    fileToWords (wordsToFile cs) = some cs ∧ (wordsToFile cs).length = 4 * cs.length ∧
    ∀ (k : Nat) (c : Word), cs[k]? = some c →
      (wordsToFile cs)[4 * k]? = some (c.extractLsb 7 0) ∧ (wordsToFile cs)[4 * k + 1]? = some (c.extractLsb 15 8) ∧
      (wordsToFile cs)[4 * k + 2]? = some (c.extractLsb 23 16) ∧ (wordsToFile cs)[4 * k + 3]? = some (c.extractLsb 31 24)

/-! ### The step and the channels -/

/-- A step runs the decoded command: when the host presents a word that decodes to `i`, the step is `exec` of `i` on the
state with that word taken from the channel (30_encoding.md R74; the channel is log 1). -/
def Obligations.StepRunsDecodedCommand : Prop :=
  ∀ (s : State) (c : Word) (rest : List HostInput) (i : Instr),
    s.pending = .command c :: rest → decode c = .ok i → step s = exec i { s with pending := rest }

/-- The model's choice (log 1): where the host presents nothing, the engine stays as it is. -/
def Obligations.IdleEngineStays : Prop := ∀ s : State, s.pending = [] → step s = .next s

/-- 00_scope.md R16: every command word is answered, by exactly one response, delivered after those before it, and is
then gone from the channel. -/
def Obligations.EveryWordGetsOneResponse : Prop :=
  ∀ (s : State) (c : Word) (rest : List HostInput), s.RegistersLegal → s.pending = .command c :: rest →
    ∃ t r, step s = .next t ∧ t.responses = s.responses ++ [r] ∧ t.pending = rest ∧ t.resets = s.resets

/-- 00_scope.md R18: running the steps of a list of presented words is the fold of the engine's step over the list, and
gives as many responses as words. -/
def Obligations.RunIsTheFoldOfItsWords : Prop :=
  ∀ (cs : List Word) (rest : List HostInput) (s : State), s.RegistersLegal →
    s.pending = cs.map HostInput.command ++ rest →
    ∃ t, Sys2Proof.core.run cs.length s = .next t ∧ runWords cs { s with pending := rest } = some t ∧
      t.pending = rest ∧ t.responses.length = s.responses.length + cs.length

/-- 10_state.md R36 and 70_reset_and_hazards.md R191: the registers, weights, flag and channels after reset, and that a
`CONV` sent first fails with `InvalidKernel`. (That an unspecified cell reads as the free value of the reset is the
model's choice, log 3.) -/
def Obligations.ResetStateValues : Prop :=
  (∀ u v, State.reset.weight u v = 0) ∧ State.reset.imgW = 0 ∧ State.reset.imgH = 0 ∧ State.reset.kH = 0 ∧
  State.reset.kW = 0 ∧ State.reset.outW = 0 ∧ State.reset.outH = 0 ∧ State.reset.ovalid = false ∧
  State.reset.readReg .id = 0x2DC0510#28 ∧
  (∀ a, State.reset.readIbuf a = Config.freeInputPixel State.reset.resets a) ∧
  (∀ a, State.reset.readObuf a = Config.freeOutputPixel State.reset.resets a) ∧
  State.reset.pending = [] ∧ State.reset.responses = [] ∧
  exec .conv State.reset = .next { State.reset with responses := [0x10000000#32] }

/-- 70_reset_and_hazards.md R190 to R192: asserting `rst_n`, with any command in progress or none, gives every register,
weight and flag its reset value, answers nothing, and leaves the memories unspecified. (The free contents and what stays
on the host's side are the model's choice, logs 3 to 5.) -/
def Obligations.HardwareResetFromAnyState : Prop :=
  ∀ (s : State) (p : Option Word) (rest : List HostInput), s.pending = .reset p :: rest →
    ∃ t, step s = .next t ∧ t = { State.reset with
        pending := rest, responses := s.responses, resets := s.resets + 1 } ∧
      (∀ a, t.readIbuf a = Config.freeInputPixel (s.resets + 1) a) ∧
      (∀ a, t.readObuf a = Config.freeOutputPixel (s.resets + 1) a)

/-! ### The commands, one by one: encoding, effect, frame, errors -/

/-- R130. -/
def Obligations.NopEffect : Prop :=
  decode 0x00000000#32 = .ok .nop ∧
  ∀ s : State, exec .nop s = .next { s with responses := s.responses ++ [0x00000000#32] }

/-- R90: `IMG_W` and `IMG_H` written and nothing else, or `OutOfRange` and nothing at all, for every pair. -/
def Obligations.SetimgEffect : Prop :=
  ∀ (w h : Dim) (s : State),
    decode (0x1#4 ++ w ++ h) = .ok (.setimg w h) ∧
    (w.toNat * h.toNat ≤ 1048576 →
      exec (.setimg w h) s = .next { s with imgW := w, imgH := h, responses := s.responses ++ [0x00000000#32] }) ∧
    (1048576 < w.toNat * h.toNat →
      exec (.setimg w h) s = .next { s with responses := s.responses ++ [0x50000000#32] })

/-- R91: the even-or-zero check first, then the dimension 7; otherwise `K_H` and `K_W` written and nothing else. -/
def Obligations.SetkrnEffect : Prop :=
  ∀ (kh kw : Bits3) (s : State),
    decode (0x2#4 ++ 0#22 ++ kh ++ kw) = .ok (.setkrn kh kw) ∧
    (kh.toNat % 2 = 0 ∨ kw.toNat % 2 = 0 →
      exec (.setkrn kh kw) s = .next { s with responses := s.responses ++ [0x10000000#32] }) ∧
    (kh.toNat % 2 = 1 → kw.toNat % 2 = 1 → 5 < kh.toNat ∨ 5 < kw.toNat →
      exec (.setkrn kh kw) s = .next { s with responses := s.responses ++ [0x50000000#32] }) ∧
    (kh.toNat % 2 = 1 → kw.toNat % 2 = 1 → kh.toNat ≤ 5 → kw.toNat ≤ 5 →
      exec (.setkrn kh kw) s = .next { s with kH := kh, kW := kw, responses := s.responses ++ [0x00000000#32] })

/-- R92: one weight written, all 22 bits as given, whatever the kernel dimensions are, and nothing else; or
`OutOfRange`. -/
def Obligations.LdwEffect : Prop :=
  ∀ (u v : Bits3) (n : Weight) (s : State),
    decode (0x3#4 ++ u ++ v ++ n) = .ok (.ldw u v n) ∧
    (∀ row col : Fin 5, u.toNat = row.val → v.toNat = col.val →
      ∃ t, exec (.ldw u v n) s = .next t ∧
        (∀ u' v', t.weight u' v' = if u' = row ∧ v' = col then n else s.weight u' v') ∧
        t = { s with k := t.k, responses := s.responses ++ [0x00000000#32] }) ∧
    (4 < u.toNat ∨ 4 < v.toNat →
      exec (.ldw u v n) s = .next { s with responses := s.responses ++ [0x50000000#32] })

/-- R93: the 22-bit pattern of the weight, bits 27:22 of the response 0; no state changes; or `OutOfRange`. -/
def Obligations.RdwEffect : Prop :=
  ∀ (u v : Bits3) (s : State),
    decode (0x8#4 ++ u ++ v ++ 0#22) = .ok (.rdw u v) ∧
    (∀ row col : Fin 5, u.toNat = row.val → v.toNat = col.val →
      exec (.rdw u v) s = .next { s with responses := s.responses ++ [(s.weight row col).setWidth 32] }) ∧
    (4 < u.toNat ∨ 4 < v.toNat →
      exec (.rdw u v) s = .next { s with responses := s.responses ++ [0x50000000#32] })

/-- R100: one cell of `IBUF` written, at any address and with any value, and nothing else: every other cell, `OBUF` and
every register read as before; it cannot fail. -/
def Obligations.LdpxEffect : Prop :=
  ∀ (a : PixelAddr) (p : Pixel) (s : State),
    decode (0x4#4 ++ p ++ a) = .ok (.ldpx a p) ∧
    ∃ t, exec (.ldpx a p) s = .next t ∧
      (∀ b, t.readIbuf b = if b = a.toNat then p else s.readIbuf b) ∧
      (∀ b, t.readObuf b = s.readObuf b) ∧
      t = { s with ibuf := t.ibuf, responses := s.responses ++ [0x00000000#32] }

/-- R101: `NoResult` before `OutOfRange`, the bound the latched output size; otherwise the pixel, zero-extended; no state
changes. -/
def Obligations.RdpxEffect : Prop :=
  ∀ (a : PixelAddr) (s : State),
    decode (0x5#4 ++ 0#8 ++ a) = .ok (.rdpx a) ∧
    (s.ovalid = false → exec (.rdpx a) s = .next { s with responses := s.responses ++ [0x60000000#32] }) ∧
    (s.ovalid = true → s.outW.toNat * s.outH.toNat ≤ a.toNat →
      exec (.rdpx a) s = .next { s with responses := s.responses ++ [0x50000000#32] }) ∧
    (s.ovalid = true → a.toNat < s.outW.toNat * s.outH.toNat →
      exec (.rdpx a) s = .next { s with responses := s.responses ++ [(s.readObuf a.toNat).setWidth 32] })

/-- R131: the register's value, zero-extended, for the numbers 0 to 7, `OutOfRange` for 8 to 15; no state changes. -/
def Obligations.RdregEffect : Prop :=
  ∀ s : State,
    (∀ r : RegNum, decode (0x7#4 ++ 0#24 ++ r) = .ok (.rdreg r)) ∧
    exec (.rdreg 0) s = .next { s with responses := s.responses ++ [s.imgW.setWidth 32] } ∧
    exec (.rdreg 1) s = .next { s with responses := s.responses ++ [s.imgH.setWidth 32] } ∧
    exec (.rdreg 2) s = .next { s with responses := s.responses ++ [s.kH.setWidth 32] } ∧
    exec (.rdreg 3) s = .next { s with responses := s.responses ++ [s.kW.setWidth 32] } ∧
    exec (.rdreg 4) s = .next { s with responses := s.responses ++ [s.outW.setWidth 32] } ∧
    exec (.rdreg 5) s = .next { s with responses := s.responses ++ [s.outH.setWidth 32] } ∧
    exec (.rdreg 6) s = .next { s with responses := s.responses ++ [if s.ovalid then 0x00000001#32 else 0#32] } ∧
    exec (.rdreg 7) s = .next { s with responses := s.responses ++ [0x02DC0510#32] } ∧
    (∀ r : RegNum, 8 ≤ r.toNat →
      exec (.rdreg r) s = .next { s with responses := s.responses ++ [0x50000000#32] })

/-- R132: all weights, the six dimension registers and `OVALID` to 0, the memories kept; so that `OBUF` cannot be read
any more and a `CONV` fails with `InvalidKernel`; the registers are those of a hardware reset. -/
def Obligations.SrstEffect : Prop :=
  decode 0x90000000#32 = .ok .srst ∧
  ∀ s : State, ∃ t, exec .srst s = .next t ∧
    (∀ u v, t.weight u v = 0) ∧
    t = { s with
      k := t.k, imgW := 0, imgH := 0, kH := 0, kW := 0, outW := 0, outH := 0, ovalid := false,
      responses := s.responses ++ [0x00000000#32] } ∧
    t = { State.reset with
      ibuf := s.ibuf, obuf := s.obuf, pending := s.pending, responses := s.responses ++ [0x00000000#32],
      resets := s.resets } ∧
    (∀ a, exec (.rdpx a) t = .next { t with responses := t.responses ++ [0x60000000#32] }) ∧
    exec .conv t = .next { t with responses := t.responses ++ [0x10000000#32] }

/-! ### `CONV` -/

/-- R120: a failing `CONV`, `InvalidKernel` first, then `EmptyImage`, changes nothing at all but the response. -/
def Obligations.ConvFailureChangesNothing : Prop :=
  ∀ s : State,
    (s.kH = 0 ∨ s.kW = 0 → exec .conv s = .next { s with responses := s.responses ++ [0x10000000#32] }) ∧
    (s.kH ≠ 0 → s.kW ≠ 0 → s.imgW = 0 ∨ s.imgH = 0 →
      exec .conv s = .next { s with responses := s.responses ++ [0x20000000#32] })

/-- R119: with a constructed kernel and a non-empty image, `CONV` completes, `OBUF` reads everywhere as after the
pseudocode's loops, `OUT_W`, `OUT_H` and `OVALID` are written, and nothing else changes; without them it raises the two
errors in the pseudocode's order. -/
def Obligations.ConvRunsThePseudocode : Prop :=
  ∀ s : State,
    (s.kH = 0 ∨ s.kW = 0 → exec .conv s = .next { s with responses := s.responses ++ [0x10000000#32] }) ∧
    (s.kH ≠ 0 → s.kW ≠ 0 → s.imgW = 0 ∨ s.imgH = 0 →
      exec .conv s = .next { s with responses := s.responses ++ [0x20000000#32] }) ∧
    (Spec.ConvReady s → ∃ t, exec .conv s = .next t ∧
      (∀ a, t.readObuf a = ({ s with obuf := Spec.obufLoops s } : State).readObuf a) ∧
      t = { s with
        obuf := t.obuf, outW := s.imgW, outH := s.imgH, ovalid := true,
        responses := s.responses ++ [0x00000000#32] })

/-- R121 and R122: a successful `CONV` writes only `OBUF[0 .. W*H - 1]`, `OUT_W`, `OUT_H` and `OVALID`: every cell of
`IBUF`, every cell of `OBUF` at or beyond `W*H`, every weight and every other register reads as before, and the output has
the dimensions of the input. -/
def Obligations.ConvFrame : Prop :=
  ∀ s : State, Spec.ConvReady s → ∃ t, exec .conv s = .next t ∧
    (∀ a, t.readIbuf a = s.readIbuf a) ∧
    (∀ a, s.imgW.toNat * s.imgH.toNat ≤ a → t.readObuf a = s.readObuf a) ∧
    (∀ u v, t.weight u v = s.weight u v) ∧
    t.imgW = s.imgW ∧ t.imgH = s.imgH ∧ t.kH = s.kH ∧ t.kW = s.kW ∧
    t.outW = s.imgW ∧ t.outH = s.imgH ∧ t.ovalid = true ∧ t.ibuf = s.ibuf ∧ t.pending = s.pending ∧ t.resets = s.resets

/-- R35: the response of `CONV` and all it writes depend only on the dimension registers, the weights inside the kernel
and the cells of the image: two states that agree on these give the same, whatever else they hold. -/
def Obligations.ConvDependsOnItsInputsAlone : Prop :=
  ∀ s s' t : State, s.imgW = s'.imgW → s.imgH = s'.imgH → s.kH = s'.kH → s.kW = s'.kW →
    (∀ u v : Fin 5, u.val < s.kH.toNat → v.val < s.kW.toNat → s.weight u v = s'.weight u v) →
    (∀ a, a < s.imgW.toNat * s.imgH.toNat → s.readIbuf a = s'.readIbuf a) →
    exec .conv s = .next t →
    ∃ t' r, exec .conv s' = .next t' ∧ t.responses = s.responses ++ [r] ∧ t'.responses = s'.responses ++ [r] ∧
      (rspError r = 0 → t.outW = t'.outW ∧ t.outH = t'.outH ∧ t.ovalid = t'.ovalid ∧
        ∀ a, a < s.imgW.toNat * s.imgH.toNat → t.readObuf a = t'.readObuf a)

/-- R117: the clamp unit, case by case, for every raw sum. -/
def Obligations.ClampThenTruncate : Prop :=
  ∀ S : Int,
    (S < 0 → clampUnit S = 0) ∧ (16711680 ≤ S → clampUnit S = 255) ∧
    (0 ≤ S → S < 16711680 → ((clampUnit S).toNat : Int) = S / 65536)

/-- R126: floor first and clamp second gives the same sample for every raw sum. -/
def Obligations.FloorThenClampIsTheSame : Prop := ∀ S : Int, ((clampUnit S).toNat : Int) = clip (S / 65536) 0 255

/-- 00_scope.md R12 and 42_convolve.md R115: every raw sum fits the 35-bit accumulator. -/
def Obligations.RawSumFitsAccumulator : Prop :=
  ∀ (s : State) (i j : Nat),
    -13369344000 ≤ s.rawSum i j ∧ s.rawSum i j ≤ 13369344000 ∧ -2 ^ 34 < s.rawSum i j ∧ s.rawSum i j < 2 ^ 34

/-- R113: the kernel is not flipped. A kernel whose one non-zero weight inside its block is 1.0 at `(u, v)` gives the
image shifted so that `out(i, j) = in(i + u - pad_h, j + v - pad_w)`; with `(u, v)` the centre, the image itself (R124 (e)). -/
def Obligations.UnitWeightShiftsTheImage : Prop :=
  ∀ (s : State) (u v : Fin 5), Spec.ConvReady s → u.val < s.kH.toNat → v.val < s.kW.toNat →
    s.weight u v = 65536 →
    (∀ u' v' : Fin 5, u'.val < s.kH.toNat → v'.val < s.kW.toNat → (u', v') ≠ (u, v) → s.weight u' v' = 0) →
    ∃ t, exec .conv s = .next t ∧ ∀ i j : Nat, i < s.imgH.toNat → j < s.imgW.toNat →
      ((t.readObuf (i * s.imgW.toNat + j)).toNat : Int) =
        Spec.neighbour s ((i : Int) + u.val - (s.kH.toNat / 2 : Nat)) ((j : Int) + v.val - (s.kW.toNat / 2 : Nat))

/-- R124 (f): with every weight of the block 0, every output sample is 0. -/
def Obligations.ZeroKernelGivesZero : Prop :=
  ∀ s : State, Spec.ConvReady s →
    (∀ u v : Fin 5, u.val < s.kH.toNat → v.val < s.kW.toNat → s.weight u v = 0) →
    ∃ t, exec .conv s = .next t ∧ ∀ a, a < s.imgW.toNat * s.imgH.toNat → t.readObuf a = 0

/-- 90_conflicts.md C3 and 42_convolve.md R124 (l): with the Box Blur weights (7282 each) a uniform image of any value
keeps that value exactly at every sample that is on no border. -/
def Obligations.BoxBlurKeepsUniformInterior : Prop :=
  ∀ (s : State) (value : Pixel), Spec.ConvReady s → s.kH = 3 → s.kW = 3 →
    (∀ u v : Fin 5, u.val < 3 → v.val < 3 → s.weight u v = 7282) →
    (∀ a, a < s.imgW.toNat * s.imgH.toNat → s.readIbuf a = value) →
    ∃ t, exec .conv s = .next t ∧ ∀ i j : Nat, 1 ≤ i → i + 1 < s.imgH.toNat → 1 ≤ j → j + 1 < s.imgW.toNat →
      t.readObuf (i * s.imgW.toNat + j) = value

/-! ### Errors -/

/-- R170: a command that fails leaves the whole state as it was: whatever the word and the state, a response with an
error code is the only change. -/
def Obligations.FailingCommandChangesNothing : Prop :=
  ∀ (c : Word) (s t : State) (r : Word), execWord c s = .next t → t.responses = s.responses ++ [r] → rspError r ≠ 0 →
    State.SameButResponses s t

/-- R168: a command reports the first error that applies: `IllegalCommand` from decoding alone, then the checks of its
own rule in the order of its pseudocode; and 0 where none applies. -/
def Obligations.FirstErrorIsReported : Prop :=
  ∀ (c : Word) (s t : State), execWord c s = .next t →
    ∃ r, t.responses = s.responses ++ [r] ∧
      rspError r = (match decode c with
        | .error _ => (0x4#4 : BitVec 4)
        | .ok i => (Spec.firstError s i).code)

/-- R163: the engine never puts 3 (`DegenerateGradient`) in a response, nor a reserved code 7 to 15; and the data of a
failing response is 0 (30_encoding.md R79). -/
def Obligations.ResponseCodesAreLegal : Prop :=
  ∀ (c : Word) (s t : State), execWord c s = .next t →
    ∃ r, t.responses = s.responses ++ [r] ∧ rspError r ∈ [(0 : BitVec 4), 1, 2, 4, 5, 6] ∧
      (rspError r ≠ 0 → rspDataOf r = 0)

/-- R166: `OutOfRange` in exactly the listed cases. -/
def Obligations.OutOfRangeExactlyWhen : Prop :=
  ∀ (i : Instr) (s t : State) (r : Word), exec i s = .next t → t.responses = s.responses ++ [r] →
    (rspError r = 5 ↔
      (∃ w h, i = .setimg w h ∧ 1048576 < w.toNat * h.toNat) ∨
      (∃ kh kw, i = .setkrn kh kw ∧ kh.toNat % 2 = 1 ∧ kw.toNat % 2 = 1 ∧ (kh = 7 ∨ kw = 7)) ∨
      (∃ u v n, i = .ldw u v n ∧ (4 < u.toNat ∨ 4 < v.toNat)) ∨
      (∃ u v, i = .rdw u v ∧ (4 < u.toNat ∨ 4 < v.toNat)) ∨
      (∃ n, i = .rdreg n ∧ 8 ≤ n.toNat) ∨
      (∃ a, i = .rdpx a ∧ s.ovalid = true ∧ s.outW.toNat * s.outH.toNat ≤ a.toNat))

/-! ### Whole-machine rules -/

/-- The canonical and legal state holds after reset (10_state.md R30, R36; the memories' form is log 3). -/
def Obligations.InvariantHoldsAtReset : Prop := State.reset.Inv

/-- R30: the five invariants of the registers hold after reset and are kept by every step, from every state that meets
them. -/
def Obligations.StepKeepsRegistersLegal : Prop :=
  State.reset.RegistersLegal ∧ ∀ s t : State, s.RegistersLegal → step s = .next t → t.RegistersLegal

/-- Every step keeps the pixel memories in canonical form and, while `OVALID = 1`, every cell of the output image written
(10_state.md R26, R34; the form is log 3). -/
def Obligations.StepKeepsMemoriesLegal : Prop :=
  ∀ s t : State, s.MemoriesLegal → step s = .next t → t.MemoriesLegal

/-- R179: `step` is total: from every state with legal registers it answers a next state, never a fault and never a
refusal, and each response it delivers is a success or one of the errors of R160. (That a step with nothing presented is
the same state again is the model's choice, log 1.) -/
def Obligations.StepNeverStops : Prop :=
  ∀ s : State, s.RegistersLegal → ∃ t rs, step s = .next t ∧ t.responses = s.responses ++ rs ∧
    ∀ r ∈ rs, ∃ e : ErrorCode, rspError r = e.code

/-- The "written by" column of 10_state.md R20, for every command: a piece of state changes only by the commands named
there. -/
def Obligations.EachPieceOfStateHasItsWriters : Prop :=
  ∀ (i : Instr) (s t : State), exec i s = .next t →
    ((∀ u v n, i ≠ .ldw u v n) → i ≠ .srst → t.k = s.k) ∧
    ((∀ w h, i ≠ .setimg w h) → i ≠ .srst → t.imgW = s.imgW ∧ t.imgH = s.imgH) ∧
    ((∀ kh kw, i ≠ .setkrn kh kw) → i ≠ .srst → t.kH = s.kH ∧ t.kW = s.kW) ∧
    (i ≠ .conv → i ≠ .srst → t.outW = s.outW ∧ t.outH = s.outH ∧ t.ovalid = s.ovalid) ∧
    ((∀ a p, i ≠ .ldpx a p) → t.ibuf = s.ibuf) ∧ (i ≠ .conv → t.obuf = s.obuf) ∧
    t.pending = s.pending ∧ t.resets = s.resets

/-- 10_state.md R26: what happens to `OVALID`: set by a `CONV` that succeeds, left by one that fails, cleared by `SRST`
and by a hardware reset, changed by nothing else. -/
def Obligations.OvalidChangesOnlyAsStated : Prop :=
  (∀ (c : Word) (s t : State), execWord c s = .next t →
    (decode c ≠ .ok .conv → decode c ≠ .ok .srst → t.ovalid = s.ovalid) ∧
    (decode c = .ok .srst → t.ovalid = false) ∧
    (decode c = .ok .conv → ∃ r, t.responses = s.responses ++ [r] ∧
      (rspError r = 0 → t.ovalid = true) ∧ (rspError r ≠ 0 → t.ovalid = s.ovalid))) ∧
  (∀ (s : State) (p : Option Word) (rest : List HostInput), s.pending = .reset p :: rest →
    ∃ t, step s = .next t ∧ t.ovalid = false)

/-- R55: `RDPX`, `RDW` and `RDREG` change no state and repeat their response; `LDPX`, `LDW`, `SETIMG`, `SETKRN` and `CONV`
sent twice leave the state of sending them once. -/
def Obligations.ReadsAndWritesAreIdempotent : Prop :=
  (∀ (i : Instr) (s t : State), ((∃ a, i = .rdpx a) ∨ (∃ u v, i = .rdw u v) ∨ (∃ r, i = .rdreg r)) →
    exec i s = .next t →
    State.SameButResponses s t ∧
    ∃ r t', t.responses = s.responses ++ [r] ∧ exec i t = .next t' ∧ t'.responses = t.responses ++ [r]) ∧
  (∀ (i : Instr) (s t : State),
    ((∃ a p, i = .ldpx a p) ∨ (∃ u v n, i = .ldw u v n) ∨ (∃ w h, i = .setimg w h) ∨ (∃ kh kw, i = .setkrn kh kw) ∨
      i = .conv) →
    exec i s = .next t → ∃ t', exec i t = .next t' ∧ State.SameButResponses t t')

/-- 20_memory.md R58 (c) and 10_state.md R34: between two successful `CONV` commands no command but `SRST` changes what
`RDPX` answers: not `LDPX`, not a change of kernel or dimensions, not a failing `CONV`. -/
def Obligations.ResultStaysReadable : Prop :=
  ∀ (c : Word) (s t : State) (r : Word), execWord c s = .next t → t.responses = s.responses ++ [r] →
    decode c ≠ .ok .srst → (decode c = .ok .conv → rspError r ≠ 0) →
    ∀ a : PixelAddr, ∃ answer,
      exec (.rdpx a) s = .next { s with responses := s.responses ++ [answer] } ∧
      exec (.rdpx a) t = .next { t with responses := t.responses ++ [answer] }

/-- 60_exceptions.md R167 and 70_reset_and_hazards.md R192: from any state without a result, whatever words the host sends
that are no `CONV`, `RDPX` still answers `NoResult`. -/
def Obligations.NoResultBeforeConv : Prop :=
  ∀ (cs : List Word) (s t : State), s.ovalid = false → (∀ c ∈ cs, decode c ≠ .ok .conv) → runWords cs s = some t →
    ∀ a : PixelAddr, exec (.rdpx a) t = .next { t with responses := t.responses ++ [0x60000000#32] }

/-! ### The host's assembler and FilterBank (outside the hardware, 00_scope.md R5) -/

/-- 30_encoding.md R81: the quantised integer is a nearest one to `x * 2^16`, and `-x` is quantised to the negation of
`x`'s integer. -/
def Obligations.QuantisationIsNearestAndOdd : Prop :=
  ∀ (num : Int) (den : Nat), 0 < den →
    2 * |Asm.quantise num den * den - num * 65536| ≤ den ∧ Asm.quantise (-num) den = -Asm.quantise num den

/-- 30_encoding.md R82: the commands of `IMAGE w, h, [...]`, run on any state, answer without an error and leave the
dimensions in `IMG_W` and `IMG_H` and pixel `a` of the list in `IBUF[a]`, wherever the image fits the block. -/
def Obligations.ImageProgramLoadsTheImage : Prop :=
  ∀ (w h : Nat) (ps : List Nat) (is : List Instr) (s : State),
    Asm.assemble (.image w h ps) = some is → w * h ≤ 1048576 →
    ∃ t, runWords (is.map encode) s = some t ∧ t.imgW.toNat = w ∧ t.imgH.toNat = h ∧
      (∀ (a : Nat) (ha : a < ps.length), (t.readIbuf a).toNat = ps[a]) ∧
      (∀ a, ps.length ≤ a → t.readIbuf a = s.readIbuf a) ∧ t.obuf = s.obuf ∧ t.k = s.k ∧
      (∀ r ∈ newResponses s t, r = 0#32)

/-- 44_filterbank_host_sequences.md R145: the Sobel combination reports `DegenerateGradient` exactly when both
intermediates are 0 everywhere, and its buffer is then all zero. -/
def Obligations.DegenerateExactlyWhenAllZero : Prop :=
  ∀ ex ey : List Pixel, ex.length = ey.length →
    ((FilterBank.sobelCombine ex ey).2 = true ↔ (∀ x ∈ ex, x = 0) ∧ (∀ y ∈ ey, y = 0)) ∧
    ((FilterBank.sobelCombine ex ey).2 = true → ∀ p ∈ (FilterBank.sobelCombine ex ey).1, p = 0) ∧
    (FilterBank.sobelCombine ex ey).1.length = ex.length

/-- 44_filterbank_host_sequences.md R144: steps 2 and 3 for every pixel, `m` its `edge_x² + edge_y²` and `top > 0` the
largest: 0 where `m` is 0, 255 where `m` is the largest, within 1 of the exact `floor(255 * sqrt(m / top))`, and that value
itself wherever `255 * sqrt(m / top)` is at least a tenth away from a whole number. (The accuracy of the host's floating
point is presumed, log 13.) -/
def Obligations.SobelSamplesFollowTheSteps : Prop :=
  ∀ (ex ey : List Pixel) (top : Nat), ex.length = ey.length → 0 < top →
    (∀ (j : Nat) (x y : Pixel), ex[j]? = some x → ey[j]? = some y → x.toNat ^ 2 + y.toNat ^ 2 ≤ top) →
    (∃ (j : Nat) (x y : Pixel), ex[j]? = some x ∧ ey[j]? = some y ∧ x.toNat ^ 2 + y.toNat ^ 2 = top) →
    ∀ (j : Nat) (x y : Pixel) (m : Nat), ex[j]? = some x → ey[j]? = some y → x.toNat ^ 2 + y.toNat ^ 2 = m →
      ∃ p, (FilterBank.sobelCombine ex ey).1[j]? = some p ∧ (m = 0 → p = 0) ∧ (m = top → p = 255) ∧
        p.toNat ≤ Nat.sqrt (65025 * m / top) + 1 ∧ Nat.sqrt (65025 * m / top) ≤ p.toNat + 1 ∧
        ∀ k : Nat, (10 * k + 1) ^ 2 * top ≤ 6502500 * m → 6502500 * m ≤ (10 * k + 9) ^ 2 * top → p.toNat = k

/-- 95_test_vectors.md T22 (its last two rows) and T23: the Edge Detection results the spec prints, with no
`DegenerateGradient`. (Host software; the accuracy of its floating point is presumed, log 13.) -/
def Obligations.SobelOfTheTestVectors : Prop :=
  FilterBank.sobelCombine [0, 0, 0, 0, 0, 255, 0, 0, 0, 0, 0, 255] [0, 0, 0, 0, 0, 0, 0, 0, 255, 255, 255, 255] =
    ([0, 0, 0, 0, 0, 180, 0, 0, 180, 180, 180, 255], false) ∧
  FilterBank.sobelCombine [0, 0, 150, 0, 0, 200, 0, 0, 150] [0, 0, 0, 0, 0, 0, 150, 200, 150] =
    ([0, 0, 180, 0, 0, 240, 180, 240, 255], false)

/-- 44_filterbank_host_sequences.md R146: whenever `apply_all` gives results, they are exactly the six in the fixed order,
whatever the caller decides about errors, and the first one is the input itself. (That a skipped filter keeps its place
among the six is the model's choice, log 11.) -/
def Obligations.ApplyAllGivesSixResultsInOrder : Prop :=
  ∀ (caller : FilterBank.Caller) (img : FilterBank.PixelBuffer) (s t : State) (rs : List FilterBank.FilterResult),
    FilterBank.applyAll caller img s = some (.ok rs, t) →
    rs.map (·.name) = ["Input", "Box Blur", "Edge Detection", "Sharpen", "High Pass", "Low Pass"] ∧
    rs.head?.map (·.outcome) = some (.ok img)

/-- 44_filterbank_host_sequences.md R146: "for any valid input image", from every state, `apply_all` gives the six results
in the fixed order, each with a buffer of the input's dimensions. -/
def Obligations.ApplyAllSucceedsOnEveryValidImage : Prop :=
  ∀ (caller : FilterBank.Caller) (img : FilterBank.PixelBuffer) (s : State),
    img.samples.length = img.width * img.height → 1 ≤ img.width → img.width ≤ 16383 → 1 ≤ img.height →
    img.height ≤ 16383 → img.width * img.height ≤ 1048576 →
    ∃ rs t, FilterBank.applyAll caller img s = some (.ok rs, t) ∧
      rs.map (·.name) = ["Input", "Box Blur", "Edge Detection", "Sharpen", "High Pass", "Low Pass"] ∧
      ∀ r ∈ rs, ∃ b : FilterBank.PixelBuffer, r.outcome = .ok b ∧ b.width = img.width ∧ b.height = img.height ∧
        b.samples.length = img.width * img.height

/-- An image without pixels is rejected by `apply_all` itself, with `EmptyImage` and without a command being sent. That is
the model's deduction (DEDUCED, log 11) from 44_filterbank_host_sequences.md R148, which says of `EmptyImage` only that it
is a "caller error, should be rejected before reaching the engine". -/
def Obligations.EmptyImageNeverReachesTheEngine : Prop :=
  ∀ (caller : FilterBank.Caller) (img : FilterBank.PixelBuffer) (s : State), img.width = 0 ∨ img.height = 0 →
    FilterBank.applyAll caller img s = some (.error 2, s)

/-- 44_filterbank_host_sequences.md R148 passes an error from the engine to the caller, "who decides whether to skip that
filter or abort the batch", for each filter that failed. On an engine without an image every filter fails with
`EmptyImage`: where the caller, given the results before it, aborts at one of the five, the batch gives that error code and
no results; where it skips each of them, every filter keeps its place under its name, with the error code and no buffer.
The form of both outcomes is the model's choice (DESIGN CHOICE, log 11). -/
def Obligations.EngineErrorsReachTheCaller : Prop :=
  ∀ (caller : FilterBank.Caller) (done : List FilterBank.FilterResult) (s : State) (w h : Nat),
    s.imgW = 0 ∨ s.imgH = 0 →
    let names := ["Box Blur", "Edge Detection", "Sharpen", "High Pass", "Low Pass"]
    let failed : List FilterBank.FilterResult := names.map fun name => ⟨name, .error 2, false⟩
    ((∃ (k : Nat) (name : String), names[k]? = some name ∧ caller (done ++ failed.take k) name 2 = .abort) →
      ∃ t, FilterBank.applyFilters caller done FilterBank.filters w h s = some (.error 2, t)) ∧
    ((∀ (k : Nat) (name : String), names[k]? = some name → caller (done ++ failed.take k) name 2 = .skip) →
      ∃ t, FilterBank.applyFilters caller done FilterBank.filters w h s = some (.ok (done ++ failed), t))
end

