-- ==== Sys2Proof/Laws/State.lean ====
section
/-! SUPPORT. One lemma per field of `State` per named update, each by unfolding; the reads that an update leaves alone. -/

namespace Sys2Proof.Machine.State

variable (s : State)

/-! ### `writeIbuf`: MemWrite(IBUF, a, 1, p) -/

@[simp] theorem writeIbuf_k (a : Nat) (p : Pixel) : (s.writeIbuf a p).k = s.k := rfl
@[simp] theorem writeIbuf_imgW (a : Nat) (p : Pixel) : (s.writeIbuf a p).imgW = s.imgW := rfl
@[simp] theorem writeIbuf_imgH (a : Nat) (p : Pixel) : (s.writeIbuf a p).imgH = s.imgH := rfl
@[simp] theorem writeIbuf_kH (a : Nat) (p : Pixel) : (s.writeIbuf a p).kH = s.kH := rfl
@[simp] theorem writeIbuf_kW (a : Nat) (p : Pixel) : (s.writeIbuf a p).kW = s.kW := rfl
@[simp] theorem writeIbuf_outW (a : Nat) (p : Pixel) : (s.writeIbuf a p).outW = s.outW := rfl
@[simp] theorem writeIbuf_outH (a : Nat) (p : Pixel) : (s.writeIbuf a p).outH = s.outH := rfl
@[simp] theorem writeIbuf_ovalid (a : Nat) (p : Pixel) : (s.writeIbuf a p).ovalid = s.ovalid := rfl
@[simp] theorem writeIbuf_ibuf (a : Nat) (p : Pixel) : (s.writeIbuf a p).ibuf = Memory.write s.ibuf a p := rfl
@[simp] theorem writeIbuf_obuf (a : Nat) (p : Pixel) : (s.writeIbuf a p).obuf = s.obuf := rfl
@[simp] theorem writeIbuf_pending (a : Nat) (p : Pixel) : (s.writeIbuf a p).pending = s.pending := rfl
@[simp] theorem writeIbuf_responses (a : Nat) (p : Pixel) : (s.writeIbuf a p).responses = s.responses := rfl
@[simp] theorem writeIbuf_resets (a : Nat) (p : Pixel) : (s.writeIbuf a p).resets = s.resets := rfl

/-! ### `setWeight`: K[u][v] <- n -/

@[simp] theorem setWeight_k (u v : Fin 5) (n : Weight) : (s.setWeight u v n).k = s.k.set u (s.k[u].set v n) := rfl
@[simp] theorem setWeight_imgW (u v : Fin 5) (n : Weight) : (s.setWeight u v n).imgW = s.imgW := rfl
@[simp] theorem setWeight_imgH (u v : Fin 5) (n : Weight) : (s.setWeight u v n).imgH = s.imgH := rfl
@[simp] theorem setWeight_kH (u v : Fin 5) (n : Weight) : (s.setWeight u v n).kH = s.kH := rfl
@[simp] theorem setWeight_kW (u v : Fin 5) (n : Weight) : (s.setWeight u v n).kW = s.kW := rfl
@[simp] theorem setWeight_outW (u v : Fin 5) (n : Weight) : (s.setWeight u v n).outW = s.outW := rfl
@[simp] theorem setWeight_outH (u v : Fin 5) (n : Weight) : (s.setWeight u v n).outH = s.outH := rfl
@[simp] theorem setWeight_ovalid (u v : Fin 5) (n : Weight) : (s.setWeight u v n).ovalid = s.ovalid := rfl
@[simp] theorem setWeight_ibuf (u v : Fin 5) (n : Weight) : (s.setWeight u v n).ibuf = s.ibuf := rfl
@[simp] theorem setWeight_obuf (u v : Fin 5) (n : Weight) : (s.setWeight u v n).obuf = s.obuf := rfl
@[simp] theorem setWeight_pending (u v : Fin 5) (n : Weight) : (s.setWeight u v n).pending = s.pending := rfl
@[simp] theorem setWeight_responses (u v : Fin 5) (n : Weight) : (s.setWeight u v n).responses = s.responses := rfl
@[simp] theorem setWeight_resets (u v : Fin 5) (n : Weight) : (s.setWeight u v n).resets = s.resets := rfl

/-! ### `setImage`: SETIMG's registers -/

@[simp] theorem setImage_k (w h : Dim) : (s.setImage w h).k = s.k := rfl
@[simp] theorem setImage_imgW (w h : Dim) : (s.setImage w h).imgW = w := rfl
@[simp] theorem setImage_imgH (w h : Dim) : (s.setImage w h).imgH = h := rfl
@[simp] theorem setImage_kH (w h : Dim) : (s.setImage w h).kH = s.kH := rfl
@[simp] theorem setImage_kW (w h : Dim) : (s.setImage w h).kW = s.kW := rfl
@[simp] theorem setImage_outW (w h : Dim) : (s.setImage w h).outW = s.outW := rfl
@[simp] theorem setImage_outH (w h : Dim) : (s.setImage w h).outH = s.outH := rfl
@[simp] theorem setImage_ovalid (w h : Dim) : (s.setImage w h).ovalid = s.ovalid := rfl
@[simp] theorem setImage_ibuf (w h : Dim) : (s.setImage w h).ibuf = s.ibuf := rfl
@[simp] theorem setImage_obuf (w h : Dim) : (s.setImage w h).obuf = s.obuf := rfl
@[simp] theorem setImage_pending (w h : Dim) : (s.setImage w h).pending = s.pending := rfl
@[simp] theorem setImage_responses (w h : Dim) : (s.setImage w h).responses = s.responses := rfl
@[simp] theorem setImage_resets (w h : Dim) : (s.setImage w h).resets = s.resets := rfl

/-! ### `setKernel`: SETKRN's registers -/

@[simp] theorem setKernel_k (kh kw : Bits3) : (s.setKernel kh kw).k = s.k := rfl
@[simp] theorem setKernel_imgW (kh kw : Bits3) : (s.setKernel kh kw).imgW = s.imgW := rfl
@[simp] theorem setKernel_imgH (kh kw : Bits3) : (s.setKernel kh kw).imgH = s.imgH := rfl
@[simp] theorem setKernel_kH (kh kw : Bits3) : (s.setKernel kh kw).kH = kh := rfl
@[simp] theorem setKernel_kW (kh kw : Bits3) : (s.setKernel kh kw).kW = kw := rfl
@[simp] theorem setKernel_outW (kh kw : Bits3) : (s.setKernel kh kw).outW = s.outW := rfl
@[simp] theorem setKernel_outH (kh kw : Bits3) : (s.setKernel kh kw).outH = s.outH := rfl
@[simp] theorem setKernel_ovalid (kh kw : Bits3) : (s.setKernel kh kw).ovalid = s.ovalid := rfl
@[simp] theorem setKernel_ibuf (kh kw : Bits3) : (s.setKernel kh kw).ibuf = s.ibuf := rfl
@[simp] theorem setKernel_obuf (kh kw : Bits3) : (s.setKernel kh kw).obuf = s.obuf := rfl
@[simp] theorem setKernel_pending (kh kw : Bits3) : (s.setKernel kh kw).pending = s.pending := rfl
@[simp] theorem setKernel_responses (kh kw : Bits3) : (s.setKernel kh kw).responses = s.responses := rfl
@[simp] theorem setKernel_resets (kh kw : Bits3) : (s.setKernel kh kw).resets = s.resets := rfl

/-! ### `publish`: CONV's write-back -/

@[simp] theorem publish_k (ps : List Pixel) : (s.publish ps).k = s.k := rfl
@[simp] theorem publish_imgW (ps : List Pixel) : (s.publish ps).imgW = s.imgW := rfl
@[simp] theorem publish_imgH (ps : List Pixel) : (s.publish ps).imgH = s.imgH := rfl
@[simp] theorem publish_kH (ps : List Pixel) : (s.publish ps).kH = s.kH := rfl
@[simp] theorem publish_kW (ps : List Pixel) : (s.publish ps).kW = s.kW := rfl
@[simp] theorem publish_outW (ps : List Pixel) : (s.publish ps).outW = s.imgW := rfl
@[simp] theorem publish_outH (ps : List Pixel) : (s.publish ps).outH = s.imgH := rfl
@[simp] theorem publish_ovalid (ps : List Pixel) : (s.publish ps).ovalid = true := rfl
@[simp] theorem publish_ibuf (ps : List Pixel) : (s.publish ps).ibuf = s.ibuf := rfl
@[simp] theorem publish_obuf (ps : List Pixel) : (s.publish ps).obuf = Memory.writeBlock s.obuf ps := rfl
@[simp] theorem publish_pending (ps : List Pixel) : (s.publish ps).pending = s.pending := rfl
@[simp] theorem publish_responses (ps : List Pixel) : (s.publish ps).responses = s.responses := rfl
@[simp] theorem publish_resets (ps : List Pixel) : (s.publish ps).resets = s.resets := rfl

/-! ### `clearRegisters`: soft reset -/

@[simp] theorem clearRegisters_k : s.clearRegisters.k = Vector.replicate 5 (Vector.replicate 5 0) := rfl
@[simp] theorem clearRegisters_imgW : s.clearRegisters.imgW = 0 := rfl
@[simp] theorem clearRegisters_imgH : s.clearRegisters.imgH = 0 := rfl
@[simp] theorem clearRegisters_kH : s.clearRegisters.kH = 0 := rfl
@[simp] theorem clearRegisters_kW : s.clearRegisters.kW = 0 := rfl
@[simp] theorem clearRegisters_outW : s.clearRegisters.outW = 0 := rfl
@[simp] theorem clearRegisters_outH : s.clearRegisters.outH = 0 := rfl
@[simp] theorem clearRegisters_ovalid : s.clearRegisters.ovalid = false := rfl
@[simp] theorem clearRegisters_ibuf : s.clearRegisters.ibuf = s.ibuf := rfl
@[simp] theorem clearRegisters_obuf : s.clearRegisters.obuf = s.obuf := rfl
@[simp] theorem clearRegisters_pending : s.clearRegisters.pending = s.pending := rfl
@[simp] theorem clearRegisters_responses : s.clearRegisters.responses = s.responses := rfl
@[simp] theorem clearRegisters_resets : s.clearRegisters.resets = s.resets := rfl

/-! ### `hardReset`: hardware reset -/

@[simp] theorem hardReset_k (p : Option Word) : (s.hardReset p).k = Vector.replicate 5 (Vector.replicate 5 0) := rfl
@[simp] theorem hardReset_imgW (p : Option Word) : (s.hardReset p).imgW = 0 := rfl
@[simp] theorem hardReset_imgH (p : Option Word) : (s.hardReset p).imgH = 0 := rfl
@[simp] theorem hardReset_kH (p : Option Word) : (s.hardReset p).kH = 0 := rfl
@[simp] theorem hardReset_kW (p : Option Word) : (s.hardReset p).kW = 0 := rfl
@[simp] theorem hardReset_outW (p : Option Word) : (s.hardReset p).outW = 0 := rfl
@[simp] theorem hardReset_outH (p : Option Word) : (s.hardReset p).outH = 0 := rfl
@[simp] theorem hardReset_ovalid (p : Option Word) : (s.hardReset p).ovalid = false := rfl
@[simp] theorem hardReset_ibuf (p : Option Word) : (s.hardReset p).ibuf = [] := rfl
@[simp] theorem hardReset_obuf (p : Option Word) : (s.hardReset p).obuf = [] := rfl
@[simp] theorem hardReset_pending (p : Option Word) : (s.hardReset p).pending = s.pending := rfl
@[simp] theorem hardReset_responses (p : Option Word) : (s.hardReset p).responses = s.responses := rfl
@[simp] theorem hardReset_resets (p : Option Word) : (s.hardReset p).resets = s.resets + 1 := rfl

/-! ### `deliver`: delivering a response -/

@[simp] theorem deliver_k (r : Word) : (s.deliver r).k = s.k := rfl
@[simp] theorem deliver_imgW (r : Word) : (s.deliver r).imgW = s.imgW := rfl
@[simp] theorem deliver_imgH (r : Word) : (s.deliver r).imgH = s.imgH := rfl
@[simp] theorem deliver_kH (r : Word) : (s.deliver r).kH = s.kH := rfl
@[simp] theorem deliver_kW (r : Word) : (s.deliver r).kW = s.kW := rfl
@[simp] theorem deliver_outW (r : Word) : (s.deliver r).outW = s.outW := rfl
@[simp] theorem deliver_outH (r : Word) : (s.deliver r).outH = s.outH := rfl
@[simp] theorem deliver_ovalid (r : Word) : (s.deliver r).ovalid = s.ovalid := rfl
@[simp] theorem deliver_ibuf (r : Word) : (s.deliver r).ibuf = s.ibuf := rfl
@[simp] theorem deliver_obuf (r : Word) : (s.deliver r).obuf = s.obuf := rfl
@[simp] theorem deliver_pending (r : Word) : (s.deliver r).pending = s.pending := rfl
@[simp] theorem deliver_responses (r : Word) : (s.deliver r).responses = s.responses ++ [r] := rfl
@[simp] theorem deliver_resets (r : Word) : (s.deliver r).resets = s.resets := rfl

/-! ### `respond`: completing a command -/

@[simp] theorem respond_k (d : RspData) : (s.respond d).k = s.k := rfl
@[simp] theorem respond_imgW (d : RspData) : (s.respond d).imgW = s.imgW := rfl
@[simp] theorem respond_imgH (d : RspData) : (s.respond d).imgH = s.imgH := rfl
@[simp] theorem respond_kH (d : RspData) : (s.respond d).kH = s.kH := rfl
@[simp] theorem respond_kW (d : RspData) : (s.respond d).kW = s.kW := rfl
@[simp] theorem respond_outW (d : RspData) : (s.respond d).outW = s.outW := rfl
@[simp] theorem respond_outH (d : RspData) : (s.respond d).outH = s.outH := rfl
@[simp] theorem respond_ovalid (d : RspData) : (s.respond d).ovalid = s.ovalid := rfl
@[simp] theorem respond_ibuf (d : RspData) : (s.respond d).ibuf = s.ibuf := rfl
@[simp] theorem respond_obuf (d : RspData) : (s.respond d).obuf = s.obuf := rfl
@[simp] theorem respond_pending (d : RspData) : (s.respond d).pending = s.pending := rfl
@[simp] theorem respond_responses (d : RspData) : (s.respond d).responses = s.responses ++ [responseWord .ok d] := rfl
@[simp] theorem respond_resets (d : RspData) : (s.respond d).resets = s.resets := rfl

/-! ### `raise`: raising an error -/

@[simp] theorem raise_k (e : ErrorCode) : (s.raise e).k = s.k := rfl
@[simp] theorem raise_imgW (e : ErrorCode) : (s.raise e).imgW = s.imgW := rfl
@[simp] theorem raise_imgH (e : ErrorCode) : (s.raise e).imgH = s.imgH := rfl
@[simp] theorem raise_kH (e : ErrorCode) : (s.raise e).kH = s.kH := rfl
@[simp] theorem raise_kW (e : ErrorCode) : (s.raise e).kW = s.kW := rfl
@[simp] theorem raise_outW (e : ErrorCode) : (s.raise e).outW = s.outW := rfl
@[simp] theorem raise_outH (e : ErrorCode) : (s.raise e).outH = s.outH := rfl
@[simp] theorem raise_ovalid (e : ErrorCode) : (s.raise e).ovalid = s.ovalid := rfl
@[simp] theorem raise_ibuf (e : ErrorCode) : (s.raise e).ibuf = s.ibuf := rfl
@[simp] theorem raise_obuf (e : ErrorCode) : (s.raise e).obuf = s.obuf := rfl
@[simp] theorem raise_pending (e : ErrorCode) : (s.raise e).pending = s.pending := rfl
@[simp] theorem raise_responses (e : ErrorCode) : (s.raise e).responses = s.responses ++ [responseWord e 0] := rfl
@[simp] theorem raise_resets (e : ErrorCode) : (s.raise e).resets = s.resets := rfl

/-! ### `send`: the host's decision -/

@[simp] theorem send_k (c : Word) : (s.send c).k = s.k := rfl
@[simp] theorem send_imgW (c : Word) : (s.send c).imgW = s.imgW := rfl
@[simp] theorem send_imgH (c : Word) : (s.send c).imgH = s.imgH := rfl
@[simp] theorem send_kH (c : Word) : (s.send c).kH = s.kH := rfl
@[simp] theorem send_kW (c : Word) : (s.send c).kW = s.kW := rfl
@[simp] theorem send_outW (c : Word) : (s.send c).outW = s.outW := rfl
@[simp] theorem send_outH (c : Word) : (s.send c).outH = s.outH := rfl
@[simp] theorem send_ovalid (c : Word) : (s.send c).ovalid = s.ovalid := rfl
@[simp] theorem send_ibuf (c : Word) : (s.send c).ibuf = s.ibuf := rfl
@[simp] theorem send_obuf (c : Word) : (s.send c).obuf = s.obuf := rfl
@[simp] theorem send_pending (c : Word) : (s.send c).pending = s.pending ++ [.command c] := rfl
@[simp] theorem send_responses (c : Word) : (s.send c).responses = s.responses := rfl
@[simp] theorem send_resets (c : Word) : (s.send c).resets = s.resets := rfl

/-! ### `presentFirst`: the host's first word -/

@[simp] theorem presentFirst_k (c : Word) : (s.presentFirst c).k = s.k := rfl
@[simp] theorem presentFirst_imgW (c : Word) : (s.presentFirst c).imgW = s.imgW := rfl
@[simp] theorem presentFirst_imgH (c : Word) : (s.presentFirst c).imgH = s.imgH := rfl
@[simp] theorem presentFirst_kH (c : Word) : (s.presentFirst c).kH = s.kH := rfl
@[simp] theorem presentFirst_kW (c : Word) : (s.presentFirst c).kW = s.kW := rfl
@[simp] theorem presentFirst_outW (c : Word) : (s.presentFirst c).outW = s.outW := rfl
@[simp] theorem presentFirst_outH (c : Word) : (s.presentFirst c).outH = s.outH := rfl
@[simp] theorem presentFirst_ovalid (c : Word) : (s.presentFirst c).ovalid = s.ovalid := rfl
@[simp] theorem presentFirst_ibuf (c : Word) : (s.presentFirst c).ibuf = s.ibuf := rfl
@[simp] theorem presentFirst_obuf (c : Word) : (s.presentFirst c).obuf = s.obuf := rfl
@[simp] theorem presentFirst_pending (c : Word) : (s.presentFirst c).pending = .command c :: s.pending := rfl
@[simp] theorem presentFirst_responses (c : Word) : (s.presentFirst c).responses = s.responses := rfl
@[simp] theorem presentFirst_resets (c : Word) : (s.presentFirst c).resets = s.resets := rfl

/-! ### Reads that an update leaves alone -/

@[simp] theorem writeIbuf_weight (a : Nat) (p : Pixel) (u' v' : Fin 5) : (s.writeIbuf a p).weight u' v' = s.weight u' v' := rfl
@[simp] theorem writeIbuf_readObuf (a : Nat) (p : Pixel) (b : Nat) : (s.writeIbuf a p).readObuf b = s.readObuf b := rfl
@[simp] theorem writeIbuf_statusWord (a : Nat) (p : Pixel) : (s.writeIbuf a p).statusWord = s.statusWord := rfl
@[simp] theorem setWeight_readIbuf (u v : Fin 5) (n : Weight) (b : Nat) : (s.setWeight u v n).readIbuf b = s.readIbuf b := rfl
@[simp] theorem setWeight_readObuf (u v : Fin 5) (n : Weight) (b : Nat) : (s.setWeight u v n).readObuf b = s.readObuf b := rfl
@[simp] theorem setWeight_statusWord (u v : Fin 5) (n : Weight) : (s.setWeight u v n).statusWord = s.statusWord := rfl
@[simp] theorem setImage_weight (w h : Dim) (u' v' : Fin 5) : (s.setImage w h).weight u' v' = s.weight u' v' := rfl
@[simp] theorem setImage_readIbuf (w h : Dim) (b : Nat) : (s.setImage w h).readIbuf b = s.readIbuf b := rfl
@[simp] theorem setImage_readObuf (w h : Dim) (b : Nat) : (s.setImage w h).readObuf b = s.readObuf b := rfl
@[simp] theorem setImage_statusWord (w h : Dim) : (s.setImage w h).statusWord = s.statusWord := rfl
@[simp] theorem setKernel_weight (kh kw : Bits3) (u' v' : Fin 5) : (s.setKernel kh kw).weight u' v' = s.weight u' v' := rfl
@[simp] theorem setKernel_readIbuf (kh kw : Bits3) (b : Nat) : (s.setKernel kh kw).readIbuf b = s.readIbuf b := rfl
@[simp] theorem setKernel_readObuf (kh kw : Bits3) (b : Nat) : (s.setKernel kh kw).readObuf b = s.readObuf b := rfl
@[simp] theorem setKernel_statusWord (kh kw : Bits3) : (s.setKernel kh kw).statusWord = s.statusWord := rfl
@[simp] theorem publish_weight (ps : List Pixel) (u' v' : Fin 5) : (s.publish ps).weight u' v' = s.weight u' v' := rfl
@[simp] theorem publish_readIbuf (ps : List Pixel) (b : Nat) : (s.publish ps).readIbuf b = s.readIbuf b := rfl
@[simp] theorem clearRegisters_readIbuf (b : Nat) : s.clearRegisters.readIbuf b = s.readIbuf b := rfl
@[simp] theorem clearRegisters_readObuf (b : Nat) : s.clearRegisters.readObuf b = s.readObuf b := rfl
@[simp] theorem deliver_weight (r : Word) (u' v' : Fin 5) : (s.deliver r).weight u' v' = s.weight u' v' := rfl
@[simp] theorem deliver_readIbuf (r : Word) (b : Nat) : (s.deliver r).readIbuf b = s.readIbuf b := rfl
@[simp] theorem deliver_readObuf (r : Word) (b : Nat) : (s.deliver r).readObuf b = s.readObuf b := rfl
@[simp] theorem deliver_statusWord (r : Word) : (s.deliver r).statusWord = s.statusWord := rfl
@[simp] theorem respond_weight (d : RspData) (u' v' : Fin 5) : (s.respond d).weight u' v' = s.weight u' v' := rfl
@[simp] theorem respond_readIbuf (d : RspData) (b : Nat) : (s.respond d).readIbuf b = s.readIbuf b := rfl
@[simp] theorem respond_readObuf (d : RspData) (b : Nat) : (s.respond d).readObuf b = s.readObuf b := rfl
@[simp] theorem respond_statusWord (d : RspData) : (s.respond d).statusWord = s.statusWord := rfl
@[simp] theorem raise_weight (e : ErrorCode) (u' v' : Fin 5) : (s.raise e).weight u' v' = s.weight u' v' := rfl
@[simp] theorem raise_readIbuf (e : ErrorCode) (b : Nat) : (s.raise e).readIbuf b = s.readIbuf b := rfl
@[simp] theorem raise_readObuf (e : ErrorCode) (b : Nat) : (s.raise e).readObuf b = s.readObuf b := rfl
@[simp] theorem raise_statusWord (e : ErrorCode) : (s.raise e).statusWord = s.statusWord := rfl
@[simp] theorem send_weight (c : Word) (u' v' : Fin 5) : (s.send c).weight u' v' = s.weight u' v' := rfl
@[simp] theorem send_readIbuf (c : Word) (b : Nat) : (s.send c).readIbuf b = s.readIbuf b := rfl
@[simp] theorem send_readObuf (c : Word) (b : Nat) : (s.send c).readObuf b = s.readObuf b := rfl
@[simp] theorem send_statusWord (c : Word) : (s.send c).statusWord = s.statusWord := rfl
@[simp] theorem presentFirst_weight (c : Word) (u' v' : Fin 5) : (s.presentFirst c).weight u' v' = s.weight u' v' := rfl
@[simp] theorem presentFirst_readIbuf (c : Word) (b : Nat) : (s.presentFirst c).readIbuf b = s.readIbuf b := rfl
@[simp] theorem presentFirst_readObuf (c : Word) (b : Nat) : (s.presentFirst c).readObuf b = s.readObuf b := rfl
@[simp] theorem presentFirst_statusWord (c : Word) : (s.presentFirst c).statusWord = s.statusWord := rfl

end Sys2Proof.Machine.State
end

