-- ==== Sys2Proof/Laws/Memory.lean ====
section
/-! SUPPORT. The laws of the pixel memories: read after write, and that every operation keeps the canonical form. -/

namespace Sys2Proof.Machine.Memory

/-! ### Read after write -/

@[simp] theorem lookup_nil (a : Nat) : lookup [] a = none := rfl

theorem lookup_cons (b : Nat) (p : Pixel) (m : Memory) (a : Nat) :
    lookup ((b, p) :: m) a = if a = b then some p else lookup m a := rfl

/-- A write is read back at its own address and seen nowhere else. -/
theorem lookup_write (m : Memory) (a : Nat) (p : Pixel) (b : Nat) :
    lookup (write m a p) b = if b = a then some p else lookup m b := by
  induction m with
  | nil => simp [write, lookup]
  | cons c m ih =>
    obtain ⟨c, q⟩ := c
    unfold write
    split
    · simp [lookup_cons]
    · split
      · subst_vars; simp only [lookup_cons]; split <;> rfl
      · simp only [lookup_cons, ih]; split <;> split <;> first | rfl | omega

theorem lookup_append (m m' : Memory) (a : Nat) : lookup (m ++ m') a = (lookup m a).or (lookup m' a) := by
  induction m with
  | nil => simp
  | cons c m ih => obtain ⟨b, p⟩ := c; simp only [List.cons_append, lookup_cons, ih]; split <;> simp

theorem lookup_cellsFrom (n : Nat) (ps : List Pixel) (a : Nat) :
    lookup (cellsFrom n ps) a = if n ≤ a then ps[a - n]? else none := by
  induction ps generalizing n with
  | nil => simp [cellsFrom]
  | cons p ps ih =>
    simp only [cellsFrom, lookup_cons, ih]
    rcases Nat.lt_trichotomy a n with h | h | h
    · simp [show a ≠ n by omega, show ¬ n ≤ a by omega, show ¬ n + 1 ≤ a by omega]
    · subst h; simp
    · obtain ⟨d, rfl⟩ : ∃ d, a = n + 1 + d := ⟨a - (n + 1), by omega⟩
      simp [show n + 1 + d ≠ n by omega, show n ≤ n + 1 + d by omega, show n + 1 + d - n = d + 1 by omega]

theorem lookup_above (n : Nat) (m : Memory) (a : Nat) :
    lookup (above n m) a = if n ≤ a then lookup m a else none := by
  induction m with
  | nil => simp [above]
  | cons c m ih =>
    obtain ⟨b, p⟩ := c
    by_cases hb : n ≤ b
    · have : above n ((b, p) :: m) = (b, p) :: above n m := by simp [above, hb]
      rw [this, lookup_cons, lookup_cons, ih]
      split <;> split <;> first | rfl | omega
    · have : above n ((b, p) :: m) = above n m := by simp [above, hb]
      rw [this, ih, lookup_cons]
      split
      · rw [if_neg (by omega)]
      · rfl

/-- A block is read back at addresses below its length and seen nowhere else. -/
theorem lookup_writeBlock (m : Memory) (ps : List Pixel) (a : Nat) :
    lookup (writeBlock m ps) a = if a < ps.length then ps[a]? else lookup m a := by
  simp only [writeBlock, lookup_append, lookup_cellsFrom, lookup_above, Nat.zero_le, if_true, Nat.sub_zero]
  by_cases h : a < ps.length
  · simp [h]
  · simp [h, Nat.not_lt.mp h]

/-! ### Writing twice -/

theorem write_write (m : Memory) (a : Nat) (p : Pixel) : write (write m a p) a p = write m a p := by
  induction m with
  | nil => simp [write]
  | cons c m ih =>
    obtain ⟨b, q⟩ := c
    by_cases h : a < b
    · simp [write, h]
    · by_cases h' : a = b
      · subst h'; simp [write]
      · simp [write, h, h', ih]

theorem above_cellsFrom (n lo : Nat) (ps : List Pixel) (h : lo + ps.length ≤ n) : above n (cellsFrom lo ps) = [] := by
  induction ps generalizing lo with
  | nil => rfl
  | cons p ps ih =>
    simp only [List.length_cons] at h
    have := ih (lo + 1) (by omega)
    simp only [above] at this ⊢
    simp [cellsFrom, this, show ¬ n ≤ lo by omega]

theorem writeBlock_writeBlock (m : Memory) (ps : List Pixel) : writeBlock (writeBlock m ps) ps = writeBlock m ps := by
  have h := above_cellsFrom ps.length 0 ps (by omega)
  simp only [above] at h
  simp [writeBlock, above, h, List.filter_filter]

/-! ### The canonical form -/

theorem wfFrom_cons (lo a : Nat) (p : Pixel) (m : Memory) :
    wfFrom lo ((a, p) :: m) = true ↔ lo ≤ a ∧ a < Config.bufPixels ∧ wfFrom (a + 1) m = true := by
  simp [wfFrom, and_assoc]

theorem wfFrom_mono {lo lo' : Nat} {m : Memory} (h : wfFrom lo m = true) (hlo : lo' ≤ lo) : wfFrom lo' m = true := by
  cases m with
  | nil => rfl
  | cons c m => obtain ⟨a, p⟩ := c; rw [wfFrom_cons] at h ⊢; exact ⟨by omega, h.2⟩

theorem wfFrom_write {lo a : Nat} {m : Memory} (p : Pixel) (h : wfFrom lo m = true) (hlo : lo ≤ a)
    (ha : a < Config.bufPixels) : wfFrom lo (write m a p) = true := by
  induction m generalizing lo with
  | nil => simp [write, wfFrom, hlo, ha]
  | cons c m ih =>
    obtain ⟨b, q⟩ := c
    rw [wfFrom_cons] at h
    unfold write
    split
    · rw [wfFrom_cons, wfFrom_cons]; exact ⟨hlo, ha, by omega, h.2⟩
    · split
      · subst_vars; rw [wfFrom_cons]; exact ⟨hlo, ha, h.2.2⟩
      · rw [wfFrom_cons]; exact ⟨h.1, h.2.1, ih h.2.2 (by omega)⟩

/-- A write to a cell of the memory keeps the canonical form. -/
theorem wf_write {m : Memory} {a : Nat} (p : Pixel) (h : wf m = true) (ha : a < Config.bufPixels) :
    wf (write m a p) = true :=
  wfFrom_write p h (Nat.zero_le a) ha

theorem wfFrom_above {lo : Nat} (n : Nat) {m : Memory} (h : wfFrom lo m = true) :
    wfFrom (max lo n) (above n m) = true := by
  induction m generalizing lo with
  | nil => rfl
  | cons c m ih =>
    obtain ⟨a, p⟩ := c
    rw [wfFrom_cons] at h
    have hm := ih h.2.2
    by_cases hn : n ≤ a
    · have : above n ((a, p) :: m) = (a, p) :: above n m := by simp [above, hn]
      rw [this, wfFrom_cons]
      exact ⟨by omega, h.2.1, wfFrom_mono hm (by omega)⟩
    · have : above n ((a, p) :: m) = above n m := by simp [above, hn]
      rw [this]
      exact wfFrom_mono hm (by omega)

theorem wfFrom_cellsFrom_append {lo : Nat} {ps : List Pixel} {m : Memory} (hm : wfFrom (lo + ps.length) m = true)
    (hb : lo + ps.length ≤ Config.bufPixels) : wfFrom lo (cellsFrom lo ps ++ m) = true := by
  induction ps generalizing lo with
  | nil => simpa [cellsFrom] using hm
  | cons p ps ih =>
    simp only [List.length_cons] at hm hb
    simp only [cellsFrom, List.cons_append]
    rw [wfFrom_cons]
    exact ⟨le_rfl, by omega, ih (by rwa [Nat.add_right_comm, Nat.add_assoc]) (by omega)⟩

/-- A block that fits the memory keeps the canonical form. -/
theorem wf_writeBlock {m : Memory} {ps : List Pixel} (h : wf m = true) (hb : ps.length ≤ Config.bufPixels) :
    wf (writeBlock m ps) = true := by
  have := wfFrom_above ps.length (show wfFrom 0 m = true from h)
  exact wfFrom_cellsFrom_append (by simpa using this) (by simpa using hb)

theorem wf_nil : wf [] = true := rfl

end Sys2Proof.Machine.Memory

namespace Sys2Proof.Machine.State

/-- `MemRead` after `MemWrite` on `IBUF` (20_memory.md R54). -/
@[simp] theorem writeIbuf_readIbuf (s : State) (a : Nat) (p : Pixel) (b : Nat) :
    (s.writeIbuf a p).readIbuf b = if b = a then p else s.readIbuf b := by
  simp only [readIbuf, writeIbuf_ibuf, writeIbuf_resets, Memory.lookup_write]
  split <;> simp

/-- What `OBUF` reads as after `CONV`'s write-back (42_convolve.md R118). -/
theorem publish_readObuf (s : State) (ps : List Pixel) (b : Nat) :
    (s.publish ps).readObuf b = if h : b < ps.length then ps[b] else s.readObuf b := by
  simp only [readObuf, publish_obuf, publish_resets, Memory.lookup_writeBlock]
  split <;> simp_all

/-- `K[u][v]` after `K[u'][v'] <- n` (40_configuration_commands.md R92). -/
theorem setWeight_weight (s : State) (u v : Fin 5) (n : Weight) (u' v' : Fin 5) :
    (s.setWeight u v n).weight u' v' = if u' = u ∧ v' = v then n else s.weight u' v' := by
  simp only [weight, setWeight_k]
  by_cases hu : u' = u
  · subst hu
    by_cases hv : v' = v
    · subst hv; simp
    · simp [hv, show ¬ (v : Nat) = v' from fun h => hv (Fin.ext h.symm)]
  · simp [hu, show ¬ (u : Nat) = u' from fun h => hu (Fin.ext h.symm)]

@[simp] theorem clearRegisters_weight (s : State) (u v : Fin 5) : s.clearRegisters.weight u v = 0 := by
  simp [weight]

@[simp] theorem hardReset_weight (s : State) (p : Option Word) (u v : Fin 5) : (s.hardReset p).weight u v = 0 := by
  simp [weight]

/-- After a hardware reset every cell holds the free value of that reset (10_state.md R36). -/
@[simp] theorem hardReset_readIbuf (s : State) (p : Option Word) (a : Nat) :
    (s.hardReset p).readIbuf a = Config.freeInputPixel (s.resets + 1) a := rfl

@[simp] theorem hardReset_readObuf (s : State) (p : Option Word) (a : Nat) :
    (s.hardReset p).readObuf a = Config.freeOutputPixel (s.resets + 1) a := rfl

end Sys2Proof.Machine.State
end

