-- ==== Sys2Proof/Laws/Exec.lean ====
section
/-! SUPPORT. What each meaning can do, said once: the meaning answers a next state, which is either an error raised
(nothing but a response) or the command's effect with its response. Later proofs cite these instead of unfolding. -/

/-- The capacity of a pixel memory as a numeral, so that a bound in either spelling is rewritten to the other. -/
theorem Sys2Proof.Config.bufPixels_eq : Sys2Proof.Config.bufPixels = 1048576 := rfl

namespace Sys2Proof.Machine

/-! ### Response words (30_encoding.md R79) -/

@[simp] theorem rspError_responseWord (e : ErrorCode) (d : RspData) : rspError (responseWord e d) = e.code := by
  apply BitVec.eq_of_toNat_eq
  show ((e.code ++ d : Word).extractLsb 31 28).toNat = _
  rw [toNat_extractLsb, toNat_concat]
  have := d.isLt
  have := e.code.isLt
  omega

@[simp] theorem rspDataOf_responseWord (e : ErrorCode) (d : RspData) : rspDataOf (responseWord e d) = d := by
  apply BitVec.eq_of_toNat_eq
  show ((e.code ++ d : Word).extractLsb 27 0).toNat = _
  rw [toNat_extractLsb, toNat_concat]
  have := d.isLt
  omega

/-- A response with data alone is the data, zero-extended to the word (20_memory.md R54). -/
theorem responseWord_ok (d : RspData) : responseWord .ok d = d.setWidth 32 := by
  apply BitVec.eq_of_toNat_eq
  show (ErrorCode.ok.code ++ d : Word).toNat = _
  rw [toNat_concat, BitVec.toNat_setWidth_of_le (by omega)]
  simp [ErrorCode.code]

/-! ### Operands -/

theorem kernelIndex_some {u : Bits3} {row : Fin 5} : kernelIndex u = some row ↔ u.toNat = row.val := by
  unfold kernelIndex
  split
  · simp [Fin.ext_iff]
  · simp only [reduceCtorEq, false_iff]; omega

theorem kernelIndex_none {u : Bits3} : kernelIndex u = none ↔ 5 ≤ u.toNat := by
  unfold kernelIndex
  split
  · simp only [reduceCtorEq, false_iff]; omega
  · simp only [true_iff]; omega

theorem ofNumber_none {r : RegNum} : CtrlReg.ofNumber r = none ↔ 8 ≤ r.toNat := by
  have := r.isLt
  unfold CtrlReg.ofNumber
  split <;> simp_all
  omega

/-! ### The meanings -/

theorem execSetimg_cases (w h : Dim) (s : State) :
    (Config.bufPixels < w.toNat * h.toNat ∧ execSetimg w h s = .next (s.raise .outOfRange)) ∨
    (w.toNat * h.toNat ≤ Config.bufPixels ∧ execSetimg w h s = .next ((s.setImage w h).respond 0)) := by
  unfold execSetimg
  split
  · exact .inl ⟨‹_›, rfl⟩
  · exact .inr ⟨by omega, rfl⟩

theorem execSetkrn_cases (kh kw : Bits3) (s : State) :
    ((kh.toNat % 2 = 0 ∨ kw.toNat % 2 = 0) ∧ execSetkrn kh kw s = .next (s.raise .invalidKernel)) ∨
    (kh.toNat % 2 = 1 ∧ kw.toNat % 2 = 1 ∧ (5 < kh.toNat ∨ 5 < kw.toNat) ∧
      execSetkrn kh kw s = .next (s.raise .outOfRange)) ∨
    (kh.toNat % 2 = 1 ∧ kw.toNat % 2 = 1 ∧ kh.toNat ≤ 5 ∧ kw.toNat ≤ 5 ∧
      execSetkrn kh kw s = .next ((s.setKernel kh kw).respond 0)) := by
  unfold execSetkrn Config.kMax
  split
  · exact .inl ⟨‹_›, rfl⟩
  · split
    · exact .inr (.inl ⟨by omega, by omega, ‹_›, rfl⟩)
    · exact .inr (.inr ⟨by omega, by omega, by omega, by omega, rfl⟩)

theorem execLdw_cases (u v : Bits3) (n : Weight) (s : State) :
    ((5 ≤ u.toNat ∨ 5 ≤ v.toNat) ∧ execLdw u v n s = .next (s.raise .outOfRange)) ∨
    (∃ row col : Fin 5, u.toNat = row.val ∧ v.toNat = col.val ∧
      execLdw u v n s = .next ((s.setWeight row col n).respond 0)) := by
  unfold execLdw
  cases hu : kernelIndex u with
  | none => exact .inl ⟨.inl (kernelIndex_none.1 hu), rfl⟩
  | some row =>
    cases hv : kernelIndex v with
    | none => exact .inl ⟨.inr (kernelIndex_none.1 hv), rfl⟩
    | some col => exact .inr ⟨row, col, kernelIndex_some.1 hu, kernelIndex_some.1 hv, rfl⟩

theorem execRdw_cases (u v : Bits3) (s : State) :
    ((5 ≤ u.toNat ∨ 5 ≤ v.toNat) ∧ execRdw u v s = .next (s.raise .outOfRange)) ∨
    (∃ row col : Fin 5, u.toNat = row.val ∧ v.toNat = col.val ∧
      execRdw u v s = .next (s.respond ((s.weight row col).setWidth 28))) := by
  unfold execRdw
  cases hu : kernelIndex u with
  | none => exact .inl ⟨.inl (kernelIndex_none.1 hu), rfl⟩
  | some row =>
    cases hv : kernelIndex v with
    | none => exact .inl ⟨.inr (kernelIndex_none.1 hv), rfl⟩
    | some col => exact .inr ⟨row, col, kernelIndex_some.1 hu, kernelIndex_some.1 hv, rfl⟩

theorem execRdpx_cases (a : PixelAddr) (s : State) :
    (s.ovalid = false ∧ execRdpx a s = .next (s.raise .noResult)) ∨
    (s.ovalid = true ∧ s.outW.toNat * s.outH.toNat ≤ a.toNat ∧ execRdpx a s = .next (s.raise .outOfRange)) ∨
    (s.ovalid = true ∧ a.toNat < s.outW.toNat * s.outH.toNat ∧
      execRdpx a s = .next (s.respond ((s.readObuf a.toNat).setWidth 28))) := by
  unfold execRdpx
  split
  · exact .inl ⟨‹_›, rfl⟩
  · have hv : s.ovalid = true := by simpa using ‹¬ s.ovalid = false›
    split
    · exact .inr (.inl ⟨hv, ‹_›, rfl⟩)
    · exact .inr (.inr ⟨hv, by omega, rfl⟩)

theorem execRdreg_cases (r : RegNum) (s : State) :
    (8 ≤ r.toNat ∧ execRdreg r s = .next (s.raise .outOfRange)) ∨
    (∃ reg, CtrlReg.ofNumber r = some reg ∧ execRdreg r s = .next (s.respond (s.readReg reg))) := by
  unfold execRdreg
  cases h : CtrlReg.ofNumber r with
  | none => exact .inl ⟨ofNumber_none.1 h, rfl⟩
  | some reg => exact .inr ⟨reg, rfl, rfl⟩

/-- `CONV`'s next states: an error with its cause, or the image published. -/
theorem execConv_next {s t : State} (h : execConv s = .next t) :
    ((s.kH = 0 ∨ s.kW = 0) ∧ t = s.raise .invalidKernel) ∨
    (¬ (s.kH = 0 ∨ s.kW = 0) ∧ (s.imgW = 0 ∨ s.imgH = 0) ∧ t = s.raise .emptyImage) ∨
    (¬ (s.kH = 0 ∨ s.kW = 0) ∧ ¬ (s.imgW = 0 ∨ s.imgH = 0) ∧ s.kH.toNat ≤ 5 ∧ s.kW.toNat ≤ 5 ∧
      s.imgW.toNat * s.imgH.toNat ≤ Config.bufPixels ∧ t = (s.publish s.convImage).respond 0) := by
  unfold execConv at h
  split at h
  · cases h; exact .inl ⟨‹_›, rfl⟩
  · split at h
    · cases h; exact .inr (.inl ⟨‹_›, ‹_›, rfl⟩)
    · split at h
      · cases h
      · split at h
        · cases h
        · have hk : ¬ (5 < s.kH.toNat ∨ 5 < s.kW.toNat) := by assumption
          cases h
          exact .inr (.inr ⟨‹_›, ‹_›, by omega, by omega, by omega, rfl⟩)

/-- `CONV` succeeds on every image and kernel the registers legally hold. -/
theorem execConv_success {s : State} (hk : ¬ (s.kH = 0 ∨ s.kW = 0)) (hi : ¬ (s.imgW = 0 ∨ s.imgH = 0))
    (hh : s.kH.toNat ≤ 5) (hw : s.kW.toNat ≤ 5) (hb : s.imgW.toNat * s.imgH.toNat ≤ Config.bufPixels) :
    execConv s = .next ((s.publish s.convImage).respond 0) := by
  unfold execConv
  rw [if_neg hk, if_neg hi, if_neg (show ¬ (Config.kMax < s.kH.toNat ∨ Config.kMax < s.kW.toNat) by unfold Config.kMax; omega), if_neg (by omega)]

/-- What `exec` can do, for every command: raise one error, or give the command's effect and its response. -/
theorem exec_next {i : Instr} {s t : State} (h : exec i s = .next t) :
    (∃ e, t = s.raise e ∧ e ∈ [ErrorCode.invalidKernel, .emptyImage, .outOfRange, .noResult]) ∨
    (match i with
      | .nop => t = s.respond 0
      | .setimg w h => w.toNat * h.toNat ≤ Config.bufPixels ∧ t = (s.setImage w h).respond 0
      | .setkrn kh kw => kh.toNat % 2 = 1 ∧ kw.toNat % 2 = 1 ∧ kh.toNat ≤ 5 ∧ kw.toNat ≤ 5 ∧
          t = (s.setKernel kh kw).respond 0
      | .ldw u v n => ∃ row col : Fin 5, u.toNat = row.val ∧ v.toNat = col.val ∧ t = (s.setWeight row col n).respond 0
      | .ldpx a p => t = (s.writeIbuf a.toNat p).respond 0
      | .rdpx a => s.ovalid = true ∧ a.toNat < s.outW.toNat * s.outH.toNat ∧
          t = s.respond ((s.readObuf a.toNat).setWidth 28)
      | .conv => ¬ (s.kH = 0 ∨ s.kW = 0) ∧ ¬ (s.imgW = 0 ∨ s.imgH = 0) ∧ s.kH.toNat ≤ 5 ∧ s.kW.toNat ≤ 5 ∧
          s.imgW.toNat * s.imgH.toNat ≤ Config.bufPixels ∧ t = (s.publish s.convImage).respond 0
      | .rdreg r => ∃ reg, CtrlReg.ofNumber r = some reg ∧ t = s.respond (s.readReg reg)
      | .rdw u v => ∃ row col : Fin 5, u.toNat = row.val ∧ v.toNat = col.val ∧
          t = s.respond ((s.weight row col).setWidth 28)
      | .srst => t = s.clearRegisters.respond 0) := by
  cases i with
  | nop => cases h; exact .inr rfl
  | setimg w h' =>
    obtain ⟨-, e⟩ | ⟨hb, e⟩ := execSetimg_cases w h' s <;> rw [exec, e] at h <;> cases h
    · exact .inl ⟨_, rfl, by simp⟩
    · exact .inr ⟨hb, rfl⟩
  | setkrn kh kw =>
    obtain ⟨-, e⟩ | ⟨-, -, -, e⟩ | ⟨h1, h2, h3, h4, e⟩ := execSetkrn_cases kh kw s <;> rw [exec, e] at h <;> cases h
    · exact .inl ⟨_, rfl, by simp⟩
    · exact .inl ⟨_, rfl, by simp⟩
    · exact .inr ⟨h1, h2, h3, h4, rfl⟩
  | ldw u v n =>
    obtain ⟨-, e⟩ | ⟨row, col, h1, h2, e⟩ := execLdw_cases u v n s <;> rw [exec, e] at h <;> cases h
    · exact .inl ⟨_, rfl, by simp⟩
    · exact .inr ⟨row, col, h1, h2, rfl⟩
  | ldpx a p => cases h; exact .inr rfl
  | rdpx a =>
    obtain ⟨-, e⟩ | ⟨-, -, e⟩ | ⟨h1, h2, e⟩ := execRdpx_cases a s <;> rw [exec, e] at h <;> cases h
    · exact .inl ⟨_, rfl, by simp⟩
    · exact .inl ⟨_, rfl, by simp⟩
    · exact .inr ⟨h1, h2, rfl⟩
  | conv =>
    obtain ⟨-, e⟩ | ⟨-, -, e⟩ | h' := execConv_next h
    · exact .inl ⟨_, e, by simp⟩
    · exact .inl ⟨_, e, by simp⟩
    · exact .inr h'
  | rdreg r =>
    obtain ⟨-, e⟩ | ⟨reg, h1, e⟩ := execRdreg_cases r s <;> rw [exec, e] at h <;> cases h
    · exact .inl ⟨_, rfl, by simp⟩
    · exact .inr ⟨reg, h1, rfl⟩
  | rdw u v =>
    obtain ⟨-, e⟩ | ⟨row, col, h1, h2, e⟩ := execRdw_cases u v s <;> rw [exec, e] at h <;> cases h
    · exact .inl ⟨_, rfl, by simp⟩
    · exact .inr ⟨row, col, h1, h2, rfl⟩
  | srst => cases h; exact .inr rfl

/-- What a command word can do: what its command does, or `IllegalCommand`. -/
theorem execWord_cases (c : Word) (s : State) :
    (∃ i, decode c = .ok i ∧ execWord c s = exec i s) ∨
    ((∃ e, decode c = .error e) ∧ execWord c s = .next (s.raise .illegalCommand)) := by
  unfold execWord
  cases h : decode c with
  | ok i => exact .inl ⟨i, rfl, rfl⟩
  | error e => exact .inr ⟨⟨e, rfl⟩, rfl⟩

/-- What a step can do: nothing, a command word, or a hardware reset. -/
theorem step_cases (s : State) :
    (s.pending = [] ∧ step s = .next s) ∨
    (∃ c rest, s.pending = .command c :: rest ∧ step s = execWord c { s with pending := rest }) ∨
    (∃ p rest, s.pending = .reset p :: rest ∧ step s = .next (({ s with pending := rest } : State).hardReset p)) := by
  unfold step State.takeInput
  cases hp : s.pending with
  | nil => exact .inl ⟨rfl, rfl⟩
  | cons x rest =>
    cases x with
    | command c => exact .inr (.inl ⟨c, rest, rfl, rfl⟩)
    | reset p => exact .inr (.inr ⟨p, rest, rfl, rfl⟩)

end Sys2Proof.Machine
end

