-- ==== Sys2Proof/Laws/Convolve.lean ====
section
/-! SUPPORT. The parts of `CONV`: the padded sample, the raw sum as a sum over the active block, the output image. -/

namespace Sys2Proof.Machine.State

theorem sample_inside {s : State} {y x : Nat} (hy : y < s.imgH.toNat) (hx : x < s.imgW.toNat) :
    s.sample y x = (s.readIbuf (y * s.imgW.toNat + x)).toNat := by
  unfold sample
  rw [if_pos (by omega)]
  rfl

theorem sample_outside {s : State} {y x : Int}
    (h : y < 0 ∨ s.imgH.toNat ≤ y ∨ x < 0 ∨ s.imgW.toNat ≤ x) : s.sample y x = 0 := by
  unfold sample
  rw [if_neg (by omega)]

/-- A padded sample is an integer in `0..255` (42_convolve.md R112). -/
theorem sample_bounds (s : State) (y x : Int) : 0 ≤ s.sample y x ∧ s.sample y x ≤ 255 := by
  unfold sample
  split
  · have := (s.readIbuf (y.toNat * s.imgW.toNat + x.toNat)).isLt
    omega
  · omega

theorem lane_inactive {s : State} {i j : Nat} {u v : Fin 5} (h : ¬ (u.val < s.kH.toNat ∧ v.val < s.kW.toNat)) :
    s.lane i j u v = 0 := if_neg h

theorem lane_active {s : State} {i j : Nat} {u v : Fin 5} (hu : u.val < s.kH.toNat) (hv : v.val < s.kW.toNat) :
    s.lane i j u v =
      (s.weight u v).toInt * s.sample ((i : Int) + u.val - pad s.kH) ((j : Int) + v.val - pad s.kW) :=
  if_pos ⟨hu, hv⟩

/-- The raw sum as a sum over the 25 positions of the array. -/
theorem rawSum_eq_sum (s : State) (i j : Nat) : s.rawSum i j = ∑ u : Fin 5, ∑ v : Fin 5, s.lane i j u v := by
  simp only [rawSum, laneIndices, List.map_cons, List.map_nil, List.sum_cons, List.sum_nil, Fin.sum_univ_five]
  ring

@[simp] theorem convImage_length (s : State) : s.convImage.length = s.imgW.toNat * s.imgH.toNat := by
  simp [convImage]

theorem convImage_getElem (s : State) (a : Nat) (h : a < s.convImage.length) :
    s.convImage[a] = s.outSample (a / s.imgW.toNat) (a % s.imgW.toNat) := by
  simp [convImage]

/-- What `OBUF` reads as after a successful `CONV` (42_convolve.md R118). -/
theorem publish_convImage_readObuf (s : State) (a : Nat) :
    (s.publish s.convImage).readObuf a =
      if a < s.imgW.toNat * s.imgH.toNat then s.outSample (a / s.imgW.toNat) (a % s.imgW.toNat) else s.readObuf a := by
  rw [publish_readObuf]
  simp only [convImage_length]
  split
  · rw [convImage_getElem]
  · rfl

/-- The output sample at row `i`, column `j` is at `i * W + j` (20_memory.md R51). -/
theorem publish_convImage_at (s : State) {i j : Nat} (hi : i < s.imgH.toNat) (hj : j < s.imgW.toNat) :
    (s.publish s.convImage).readObuf (i * s.imgW.toNat + j) = s.outSample i j := by
  have hlt : i * s.imgW.toNat + j < s.imgW.toNat * s.imgH.toNat := by nlinarith
  have hpos : 0 < s.imgW.toNat := by omega
  rw [publish_convImage_readObuf, if_pos hlt]
  congr 1
  · rw [Nat.mul_comm, Nat.mul_add_div hpos, Nat.div_eq_of_lt hj, Nat.add_zero]
  · rw [Nat.mul_comm, Nat.mul_add_mod, Nat.mod_eq_of_lt hj]

end Sys2Proof.Machine.State

namespace Sys2Proof.Machine

/-- The clamp unit's three cases (42_convolve.md R117). -/
theorem clampUnit_neg {x : Int} (h : x < 0) : clampUnit x = 0 := by
  unfold clampUnit clip
  rw [if_pos h]
  rfl

theorem clampUnit_high {x : Int} (h : 16711680 ≤ x) : clampUnit x = 255 := by
  have hc : clip x 0 (255 * 2 ^ Config.wFrac) = 16711680 := by
    unfold clip Config.wFrac
    split
    · omega
    · split <;> omega
  rw [clampUnit, hc]
  rfl

theorem clampUnit_mid {x : Int} (h0 : 0 ≤ x) (h1 : x < 16711680) : (clampUnit x).toNat = x.toNat / 65536 := by
  have hc : clip x 0 (255 * 2 ^ Config.wFrac) = x := by
    unfold clip Config.wFrac
    rw [if_neg (by omega), if_neg (by omega)]
  rw [clampUnit, hc, show (2 : Int) ^ Config.wFrac = 65536 from rfl, BitVec.toNat_ofInt]
  omega

end Sys2Proof.Machine
end

