-- ==== Sys2Proof/Laws/FilterBank.lean ====
section
/-! SUPPORT. Runs and the host's FilterBank: runs compose, what the host reads as an error, the size of the Sobel
combination. -/

namespace Sys2Proof.Machine

@[simp] theorem runWords_nil (s : State) : runWords [] s = some s := rfl

theorem runWords_cons {c : Word} {s t : State} (h : execWord c s = .next t) (cs : List Word) :
    runWords (c :: cs) s = runWords cs t := by
  simp only [runWords, h]

/-- A run of two lists of words is the run of the second after the run of the first. -/
theorem runWords_append (cs ds : List Word) (s : State) :
    runWords (cs ++ ds) s = (runWords cs s).bind (runWords ds) := by
  induction cs generalizing s with
  | nil => rfl
  | cons c cs ih =>
    simp only [List.cons_append, runWords]
    cases execWord c s <;> simp [ih]

/-- The new responses are those appended. -/
theorem newResponses_eq {s t : State} {rs : List Word} (h : t.responses = s.responses ++ rs) : newResponses s t = rs := by
  simp [newResponses, h]

end Sys2Proof.Machine

namespace Sys2Proof.FilterBank

open Sys2Proof.Machine

theorem firstErrorOf_eq_none {rs : List Word} : firstErrorOf rs = none ↔ ∀ r ∈ rs, rspError r = 0 := by
  simp [firstErrorOf, List.find?_eq_none]

/-- The combination has a sample for every pixel of the two intermediates. -/
theorem sobelCombine_length (ex ey : List Pixel) :
    (sobelCombine ex ey).1.length = min ex.length ey.length := by
  simp only [sobelCombine]
  split <;> simp [magnitudeSquares]

/-- A filter whose passes fail: the caller is asked with the results so far, and skips it or aborts the batch. -/
theorem applyFilters_failed {f : Filter} {w h : Nat} {s t : State} {e : BitVec 4}
    (hp : passes f.kernels (w * h) s = some (.error e, t)) (caller : Caller) (done : List FilterResult)
    (fs : List Filter) :
    applyFilters caller done (f :: fs) w h s =
      match caller done f.name e with
      | .skip => applyFilters caller (done ++ [⟨f.name, .error e, false⟩]) fs w h t
      | .abort => some (.error e, t) := by
  simp only [applyFilters, hp, Option.bind_eq_bind, Option.bind_some]
  rfl

/-- A filter whose passes succeed adds its result. -/
theorem applyFilters_passed {f : Filter} {w h : Nat} {s t : State} {outs : List (List Pixel)}
    (hp : passes f.kernels (w * h) s = some (.ok outs, t)) (caller : Caller) (done : List FilterResult)
    (fs : List Filter) :
    applyFilters caller done (f :: fs) w h s = applyFilters caller (done ++ [resultOf f w h outs]) fs w h t := by
  simp only [applyFilters, hp, Option.bind_eq_bind, Option.bind_some]

/-- The name of a result is its filter's. -/
@[simp] theorem resultOf_name (f : Filter) (w h : Nat) (outs : List (List Pixel)) : (resultOf f w h outs).name = f.name := by
  unfold resultOf
  split <;> rfl

end Sys2Proof.FilterBank
end

