-- ==== Sys2Proof/Laws/HostFloat.lean ====
section
/-! SUPPORT. What the host's roundings can do, whatever the free values of its format are: a result is within `1 / 2^14` of
the exact one, relative to it; 0 and the whole numbers are exact. -/

namespace Sys2Proof.HostFloat

/-! ### The grid -/

/-- A rounded result is one of the two grid points around the exact one. -/
theorem gridPoint_error {steps k : Nat} {exact up : Bool} {x : ℝ} (hs : 0 < steps) (hlo : (k : ℝ) ≤ x * steps)
    (hhi : x * steps < k + 1) :
    |((gridPoint steps k exact up : ℚ) : ℝ) - x| ≤ 1 / steps := by
  have hs' : (0 : ℝ) < steps := by exact_mod_cast hs
  have key : |((if up && !exact then k + 1 else k : Nat) : ℝ) - x * steps| ≤ 1 := by
    split
    · push_cast
      rw [abs_le]
      constructor <;> linarith
    · rw [abs_le]
      constructor <;> linarith
  have : ((gridPoint steps k exact up : ℚ) : ℝ) - x =
      (((if up && !exact then k + 1 else k : Nat) : ℝ) - x * steps) / steps := by
    unfold gridPoint
    generalize (if up && !exact then k + 1 else k : Nat) = n
    push_cast
    field_simp
  rw [this, abs_div, abs_of_pos hs']
  gcongr

theorem gridPoint_exact (steps k : Nat) (up : Bool) : gridPoint steps k true up = (k : ℚ) / steps := by
  simp [gridPoint]

theorem gridPoint_nonneg (steps k : Nat) (exact up : Bool) : 0 ≤ gridPoint steps k exact up := by
  unfold gridPoint
  positivity

/-! ### Results of `/` and `*` -/

theorem round_nonneg (x : ℚ) : 0 ≤ round x := gridPoint_nonneg _ _ _ _

/-- A whole number is exact. -/
theorem round_natCast (n : Nat) : round (n : ℚ) = n := by
  unfold round roundRat
  have h : ⌊(n : ℚ) * ((minSteps n + Config.hostSteps n : Nat) : ℚ)⌋₊ = n * (minSteps n + Config.hostSteps n) := by
    rw [← Nat.cast_mul, Nat.floor_natCast]
  rw [h]
  simp only [Nat.cast_mul, decide_true, gridPoint_exact]
  rcases Nat.eq_zero_or_pos n with rfl | hn
  · simp
  · have : 0 < minSteps n := by
      unfold minSteps Config.hostPrecision
      rw [Nat.ceil_pos]
      positivity
    have : ((minSteps (n : ℚ) + Config.hostSteps n : Nat) : ℚ) ≠ 0 := by
      exact_mod_cast (by omega : minSteps (n : ℚ) + Config.hostSteps n ≠ 0)
    field_simp

/-- The relative error of a result. -/
theorem round_error {x : ℚ} (hx : 0 < x) : |((round x : ℚ) : ℝ) - x| ≤ x / 16384 := by
  have hm : (16384 : ℚ) / x ≤ (minSteps x : ℚ) := Nat.le_ceil _
  have hq : (16384 : ℝ) / x ≤ ((minSteps x + Config.hostSteps x : Nat) : ℝ) := by
    have : ((16384 / x : ℚ) : ℝ) ≤ ((minSteps x : ℚ) : ℝ) := by exact_mod_cast hm
    push_cast at this ⊢
    have : (0 : ℝ) ≤ Config.hostSteps x := Nat.cast_nonneg _
    linarith
  have hx' : (0 : ℝ) < x := by exact_mod_cast hx
  have hpos : (0 : ℝ) < ((minSteps x + Config.hostSteps x : Nat) : ℝ) := lt_of_lt_of_le (by positivity) hq
  have hnn : (0 : ℚ) ≤ x * ((minSteps x + Config.hostSteps x : Nat) : ℚ) := by positivity
  refine (gridPoint_error (by exact_mod_cast hpos) ?_ ?_).trans ?_
  · exact_mod_cast Nat.floor_le hnn
  · exact_mod_cast Nat.lt_floor_add_one (x * ((minSteps x + Config.hostSteps x : Nat) : ℚ))
  · rw [div_le_iff₀ hpos]
    rw [div_le_iff₀ hx'] at hq
    linarith

/-! ### Results of `sqrt` -/

theorem sqrt_nonneg (m : Nat) : 0 ≤ sqrt m := gridPoint_nonneg _ _ _ _

/-- The square root of a square is exact. -/
theorem sqrt_sq (n : Nat) : sqrt (n ^ 2) = n := by
  unfold sqrt roundSqrt
  rw [← mul_pow, Nat.sqrt_eq' _]
  simp only [beq_self_eq_true, gridPoint_exact, Nat.cast_mul]
  have : ((minSqrtSteps (n ^ 2) + Config.hostSqrtSteps (n ^ 2) : Nat) : ℚ) ≠ 0 := by
    have : minSqrtSteps (n ^ 2) + Config.hostSqrtSteps (n ^ 2) ≠ 0 := by unfold minSqrtSteps; omega
    exact_mod_cast this
  field_simp

/-- The relative error of a square root. -/
theorem sqrt_error {m : Nat} (hm : 0 < m) : |((sqrt m : ℚ) : ℝ) - Real.sqrt m| ≤ Real.sqrt m / 16384 := by
  have hpos : 0 < minSqrtSteps m + Config.hostSqrtSteps m := by unfold minSqrtSteps; omega
  have hge : 16384 ^ 2 ≤ m * (minSqrtSteps m + Config.hostSqrtSteps m) ^ 2 := by
    have h1 : 16384 ^ 2 / m < minSqrtSteps m ^ 2 := Nat.sqrt_lt'.1 (Nat.lt_succ_self _)
    have h2 : minSqrtSteps m ^ 2 ≤ (minSqrtSteps m + Config.hostSqrtSteps m) ^ 2 :=
      Nat.pow_le_pow_left (Nat.le_add_right _ _) 2
    rw [Nat.div_lt_iff_lt_mul hm] at h1
    nlinarith
  generalize hq : minSqrtSteps m + Config.hostSqrtSteps m = q at hpos hge
  have hsq : Real.sqrt m * q = Real.sqrt ((m * q ^ 2 : Nat) : ℝ) := by
    push_cast
    rw [Real.sqrt_mul (Nat.cast_nonneg _), Real.sqrt_sq (Nat.cast_nonneg _)]
  have hq' : (0 : ℝ) < q := by exact_mod_cast hpos
  have hroot : (16384 : ℝ) ≤ Real.sqrt m * q := by
    rw [hsq]
    exact Real.le_sqrt_of_sq_le (by exact_mod_cast hge)
  unfold sqrt roundSqrt
  rw [hq]
  refine (gridPoint_error hpos ?_ ?_).trans ?_
  · rw [hsq]
    exact Real.nat_sqrt_le_real_sqrt
  · rw [hsq]
    exact Real.real_sqrt_lt_nat_sqrt_succ
  · rw [div_le_div_iff₀ hq' (by norm_num)]
    linarith

end Sys2Proof.HostFloat
end

