-- ==== Sys2Proof/Tests/Slice0.lean ====
section
/-! SUPPORT. Tests with results taken from the spec (95_test_vectors.md T1 to T26 and the tables of 30_encoding.md R80,
R81 and 44_filterbank_host_sequences.md R141), and a witness for the hypotheses of every obligation that has some. -/

namespace Sys2Proof.Tests

open Sys2Proof Sys2Proof.Machine

/-- The reset state with a kernel, given by its rows, and an image loaded. -/
def loaded (kh kw : Nat) (kernel : List (List Int)) (w h : Nat) (pixels : List Nat) : State :=
  { State.reset with
    k := Vector.ofFn fun u => Vector.ofFn fun v => BitVec.ofInt 22 ((kernel.getD u.val []).getD v.val 0)
    kH := BitVec.ofNat 3 kh
    kW := BitVec.ofNat 3 kw
    imgW := BitVec.ofNat 14 w
    imgH := BitVec.ofNat 14 h
    ibuf := Memory.cellsFrom 0 (pixels.map (BitVec.ofNat 8)) }

/-- The state after a command that goes on. -/
def after (i : Instr) (s : State) : State :=
  match exec i s with
  | .next t => t
  | _ => s

/-- The last response of a state. -/
def answer (s : State) : Option Word := s.responses.getLast?

/-- The output samples of `CONV` in row-major order. -/
def output (s : State) : List Nat := (after .conv s).obuf.map fun c => c.2.toNat

/-- The image `A` of 95_test_vectors.md. -/
def imageA : List Nat := [10, 20, 30, 40, 50, 60, 70, 80, 255]

/-- The image `N` of 95_test_vectors.md. -/
def imageN : List Nat := [1, 2, 3, 4, 5, 6, 7, 8, 9]

/-- The image `B` of 95_test_vectors.md, `W = 4`, `H = 2`. -/
def imageB : List Nat := [10, 20, 30, 40, 50, 60, 70, 80]

/-- A one-pixel image and a one-weight kernel. -/
def tiny (n : Int) (pixel : Nat) : State := loaded 1 1 [[n]] 1 1 [pixel]

/-- The Sharpen kernel's integers (R141). -/
def sharp : List (List Int) := [[0, -65536, 0], [-65536, 327680, -65536], [0, -65536, 0]]

/-! ### Decoding: the words of 95_test_vectors.md T1 and T2 -/

theorem test_decode_nop : decode 0x00000000#32 = .ok .nop := by decide
theorem test_decode_setimg : decode 0x1FFFC040#32 = .ok (.setimg 16383 64) := by decide
theorem test_decode_setimg_height : decode 0x10007FFF#32 = .ok (.setimg 1 16383) := by decide
theorem test_decode_setkrn : decode 0x2000002B#32 = .ok (.setkrn 5 3) := by decide
theorem test_decode_ldw : decode 0x391FFFFF#32 = .ok (.ldw 4 4 2097151) := by decide
theorem test_decode_ldw_negative : decode 0x307F0000#32 = .ok (.ldw 0 1 (BitVec.ofInt 22 (-65536))) := by decide
theorem test_decode_ldpx : decode 0x4FF00003#32 = .ok (.ldpx 3 255) := by decide
theorem test_decode_rdpx : decode 0x500FFFFF#32 = .ok (.rdpx 1048575) := by decide
theorem test_decode_conv : decode 0x60000000#32 = .ok .conv := by decide
theorem test_decode_rdreg : decode 0x7000000F#32 = .ok (.rdreg 15) := by decide
theorem test_decode_rdw : decode 0x84C00000#32 = .ok (.rdw 2 3) := by decide
theorem test_decode_srst : decode 0x90000000#32 = .ok .srst := by decide

/-- The illegal words of T2, each with the reason. -/
theorem test_decode_reserved_bits :
    [0x00000001#32, 0x08000000#32, 0x2000005B#32, 0x2800001B#32, 0x50100000#32, 0x5FF00000#32, 0x60000001#32,
      0x6FFFFFFF#32, 0x70000010#32, 0x80400001#32, 0x803FFFFF#32, 0x90000001#32].map decode =
    [0, 0, 2, 2, 5, 5, 6, 6, 7, 8, 8, 9].map fun op => .error (.reservedBits op) := by decide

theorem test_decode_reserved_opcodes :
    [0xA0000000#32, 0xB1234567#32, 0xC0000000#32, 0xD0000000#32, 0xE0000000#32, 0xF0000000#32,
      0xFFFFFFFF#32].map decode =
    [0xA, 0xB, 0xC, 0xD, 0xE, 0xF, 0xF].map fun op => .error (.reservedOpcode op) := by decide

theorem test_encode_setimg : encode (.setimg 1 16383) = 0x10007FFF#32 := by decide
theorem test_encode_setkrn : encode (.setkrn 5 3) = 0x2000002B#32 := by decide
theorem test_encode_ldw : encode (.ldw 4 4 0x200000) = 0x39200000#32 := by decide
theorem test_encode_ldpx : encode (.ldpx 2 99) = 0x46300002#32 := by decide
theorem test_encode_rdw : encode (.rdw 7 7) = 0x8FC00000#32 := by decide
theorem test_table_word : decodeTableWord 32 0x2000001B = some (.setkrn 3 3) := by decide

/-- The byte order of a command file (20_memory.md R52). -/
theorem test_command_file : wordsToFile [0x32450000#32] = [0x00, 0x00, 0x45, 0x32] := by decide

/-! ### WellFormed: an ill-formed term for each check (T3, T4, T5, T24), and its neighbour that passes -/

theorem test_ill_formed_setimg : (Instr.setimg 1025 1024).wellFormed = false := by decide
theorem test_ill_formed_setkrn_even : (Instr.setkrn 4 3).wellFormed = false := by decide
theorem test_ill_formed_setkrn_zero : (Instr.setkrn 3 0).wellFormed = false := by decide
theorem test_ill_formed_setkrn_seven : (Instr.setkrn 5 7).wellFormed = false := by decide
theorem test_ill_formed_ldw_row : (Instr.ldw 5 0 1).wellFormed = false := by decide
theorem test_ill_formed_ldw_column : (Instr.ldw 0 7 1).wellFormed = false := by decide
theorem test_ill_formed_rdw_row : (Instr.rdw 5 0).wellFormed = false := by decide
theorem test_ill_formed_rdw_column : (Instr.rdw 4 5).wellFormed = false := by decide
theorem test_ill_formed_rdreg : (Instr.rdreg 8).wellFormed = false := by decide
theorem test_well_formed :
    [.setimg 1024 1024, .setkrn 5 5, .ldw 4 4 0, .rdw 4 4, .rdreg 7].all Instr.wellFormed = true := by decide

/-! ### The commands, one step each -/

theorem test_nop : answer (after .nop State.reset) = some 0x00000000#32 := by decide

/-- T3: the capacity itself is accepted. -/
theorem test_setimg : (after (.setimg 1024 1024) State.reset).imgH = 1024 := by decide

/-- T3: one column more is not, and the registers keep their values. -/
theorem test_setimg_out_of_range :
    (fun t => (answer t, t.imgW, t.imgH)) (after (.setimg 1025 1024) (loaded 0 0 [] 4 2 [])) =
      (some 0x50000000#32, 4, 2) := by decide

theorem test_setkrn : (fun t => (t.kH, t.kW)) (after (.setkrn 5 3) State.reset) = (5, 3) := by decide

/-- T4 and T25: the even-or-zero check comes first. -/
theorem test_setkrn_errors :
    [.setkrn 6 7, .setkrn 7 5, .setkrn 0 0].map (fun i => answer (after i State.reset)) =
      [some 0x10000000#32, some 0x50000000#32, some 0x10000000#32] := by decide

/-- T5: a weight is written whatever the kernel dimensions are. -/
theorem test_ldw : (after (.ldw 4 4 7282) State.reset).weight 4 4 = 7282 := by decide
theorem test_ldw_out_of_range : answer (after (.ldw 0 7 1) State.reset) = some 0x50000000#32 := by decide

/-- T5: the 22-bit pattern, not sign-extended. -/
theorem test_rdw_negative : answer (after (.rdw 0 1) (loaded 1 1 [[0, -65536]] 0 0 [])) = some 0x003F0000#32 := by decide
theorem test_rdw_out_of_range : answer (after (.rdw 4 5) State.reset) = some 0x50000000#32 := by decide

/-- T6: the last cell of the memory, far outside any image. -/
theorem test_ldpx : (after (.ldpx 1048575 255) State.reset).readIbuf 1048575 = 255 := by decide

/-- T6: `NoResult` before the address is looked at; then the bound is the latched output size. -/
theorem test_rdpx_no_result : answer (after (.rdpx 1048575) State.reset) = some 0x60000000#32 := by decide
theorem test_rdpx :
    [.rdpx 1, .rdpx 2].map
        (fun i => answer (after i { loaded 1 1 [] 3 1 [] with outW := 2, outH := 1, ovalid := true, obuf := [(0, 14), (1, 18)] })) =
      [some 0x00000012#32, some 0x50000000#32] := by decide

/-- T24: the numbers of the registers. -/
theorem test_rdreg :
    ([0, 1, 2, 3, 6, 7, 8].map fun r =>
        answer (after (.rdreg r) { loaded 5 3 [] 4 2 [] with ovalid := true })) =
      [some 4, some 2, some 5, some 3, some 1, some 0x02DC0510#32, some 0x50000000#32] := by decide

theorem test_srst :
    (fun t => (t.imgW, t.kH, t.weight 0 0, t.readIbuf 0)) (after .srst (tiny 65536 77)) = (0, 0, 0, 77) := by decide

/-- T25: the order of the checks of `CONV`. -/
theorem test_conv_errors :
    [State.reset, loaded 3 3 [] 0 5 [], loaded 0 0 [] 2 2 []].map (fun s => answer (after .conv s)) =
      [some 0x10000000#32, some 0x20000000#32, some 0x10000000#32] := by decide

/-! ### `CONV`'s operands and arithmetic -/

/-- T7: truncation and clamp boundaries. -/
theorem test_clamp_boundaries :
    ([(255, 65535), (255, 65536), (255, 65537), (255, 32768), (1, 65535), (1, -1), (0, -2097152), (255, 2097151),
        (255, -2097152), (127, 131071)].map fun x => output (tiny x.2 x.1)) =
      [[254], [255], [255], [127], [0], [0], [0], [255], [0], [253]] := by decide

/-- S2: one pixel under a 3x3 kernel; the other eight weights meet padding. -/
theorem test_padding :
    output (loaded 3 3 [[458752, 458752, 458752], [458752, 32768, 458752], [458752, 458752, 458752]] 1 1 [100]) =
      [50] := by decide

/-- T12. -/
theorem test_sharpen : output (loaded 3 3 sharp 3 3 imageA) = [0, 10, 70, 70, 50, 0, 230, 25, 255] := by decide

/-- T15: orientation, the kernel is not flipped. -/
theorem test_sobel_x :
    output (loaded 3 3 [[65536, 0, -65536], [131072, 0, -131072], [65536, 0, -65536]] 3 3 imageA) =
      [0, 0, 90, 0, 0, 200, 0, 0, 210] := by decide

/-- T17, rows 1 and 4: rectangular kernels on an image that is not square. -/
theorem test_row_kernel : output (loaded 1 3 [[65536, 0, -65536]] 4 2 imageB) = [0, 0, 0, 30, 0, 0, 0, 70] := by decide
theorem test_column_kernel :
    output (loaded 3 1 [[-65536], [0], [65536]] 4 2 imageB) = [50, 60, 70, 80, 0, 0, 0, 0] := by decide

/-- T19: a 5x5 kernel with `K[4][3] = 1`. -/
theorem test_alignment : output (loaded 5 5 [[], [], [], [], [0, 0, 0, 65536]] 3 3 imageN) = [8, 9, 0, 0, 0, 0, 0, 0, 0] := by
  decide

/-- T20: inactive lanes contribute nothing. -/
theorem test_inactive_lanes : output (loaded 1 1 [[65536, 2031616], [2031616, 2031616]] 3 1 [1, 2, 3]) = [1, 2, 3] := by
  decide

/-- T21: the centre of a 5x5 kernel of the most negative weights on a 5x5 image of 255. -/
theorem test_accumulator :
    (loaded 5 5 (List.replicate 5 (List.replicate 5 (-2097152))) 5 5 (List.replicate 25 255)).rawSum 2 2 =
      -13369344000 := by decide

/-! ### The host's assembler -/

/-- R81. -/
theorem test_quantise :
    [Asm.quantise 1 1, Asm.quantise 5 1, Asm.quantise (-1) 1, Asm.quantise 1 9, Asm.quantise 5 9,
      Asm.quantise (-7) 9] = [65536, 327680, -65536, 7282, 36409, -50972] := by decide

/-- R141: the nine words of `KHIGH` after `SETKRN 3, 3`. -/
theorem test_khigh :
    Asm.program [.khigh] = some [0x2000001B, 0x303F38E4, 0x307F38E4, 0x30800000, 0x32000000, 0x32450000, 0x32800000,
      0x34000000, 0x347F38E4, 0x34BF38E4] := by decide

/-- R141: the nine words of `KSOBELY`. -/
theorem test_ksobely :
    Asm.program [.ksobely] = some [0x2000001B, 0x30010000, 0x30420000, 0x30810000, 0x32000000, 0x32400000, 0x32800000,
      0x343F0000, 0x347E0000, 0x34BF0000] := by decide

/-- R81: a weight outside the field is rejected. -/
theorem test_reject_weight : Asm.program [.ldw 0 0 (.real 32 1)] = none := by decide

/-- R82: a list without entries, and a line without its list (log 10). -/
theorem test_parse_empty_list : (Asm.parseLine "IMAGE 0, 5, []".toList) = some [.line (.image 0 5 [])] := by decide
theorem test_parse_no_list : (Asm.parseLine "IMAGE 0, 5".toList) = none := by decide

/-- R80: the text of a line, with a comment. -/
theorem test_parse : (Asm.parseLine "LDPX 3, 0xFF ; a pixel".toList) = some [.line (.ldpx 3 255)] := by decide
theorem test_parse_weight : (Asm.parseLine "LDW 0, 0, -7/9".toList) = some [.line (.ldw 0 0 (.real (-7) 9))] := by decide
theorem test_parse_kernel :
    (Asm.parseLine "KERNEL 1, 3, [1, 0, -0.5]".toList) =
      some [.line (.kernel 1 3 [.real 1 1, .real 0 1, .real (-5) 10])] := by decide

/-- P4, the words of steps 24 and 25, after a `CONV` and a blank line. -/
theorem test_assemble_text :
    Asm.assembleText ["CONV".toList, ".word 0xA0000000".toList, "".toList, ".word 0x60000001".toList] =
      some [0x60000000, 0xA0000000, 0x60000001] := by decide

/-! ### The host's floating point -/

/-- Below an exact whole number, and the two neighbours of an inexact one, on a grid of quarters: `sqrt(2)`, `10 / 3`. -/
theorem test_round_rat :
    (HostFloat.roundRat 4 true 3, HostFloat.roundRat 4 false (10 / 3), HostFloat.roundRat 4 true (10 / 3)) =
      (3, 13 / 4, 14 / 4) := by decide +kernel
theorem test_round_sqrt :
    (HostFloat.roundSqrt 4 true 9, HostFloat.roundSqrt 4 false 2, HostFloat.roundSqrt 4 true 2) =
      (3, 5 / 4, 6 / 4) := by decide +kernel
theorem test_to_pixel : HostFloat.toPixel (18031 / 100) = 180 := by decide +kernel

/-! ### Witnesses: hypotheses that obligations make are met -/

/-- A word of the command channel and the state that presents it. -/
def presenting (c : Word) : State := { tiny 65536 7 with pending := [.command c, .command 0x90000000#32] }

/-- A state that holds a result of two pixels. -/
def withResult : State :=
  { loaded 1 1 [[65536]] 2 1 [14, 18] with outW := 2, outH := 1, ovalid := true, obuf := [(0, 14), (1, 18), (7, 3)] }

theorem witness_EncodeOfDecodeIsIdentity : decode 0x8FC00000#32 = .ok (.rdw 7 7) := by decide

theorem witness_DecoderFollowsOpcodeTable :
    (opcodeRow (.setkrn 3 3)).hits 0x2000001B#32 ∧ ∀ row ∈ opcodeTable, ¬ row.hits 0x2000005A#32 := by
  unfold OpcodeRow.hits
  decide

theorem witness_ReservedOpcodesAreIllegal : 0xA ≤ ((0xA0000000#32).extractLsb 31 28).toNat := by decide

/-- For every format with reserved bits, the lowest and the highest of them (T2's words where it has them). -/
theorem witness_ReservedBitsAreIllegal :
    (([0x00000001, 0x08000000, 0x2000005B, 0x2800001B, 0x50100000, 0x58000000, 0x60000001, 0x68000000, 0x70000010,
        0x78000000, 0x80400001, 0x80200000, 0x90000001, 0x98000000] : List Word).all fun c =>
      Spec.reservedBits.any fun x => decide (c.extractLsb 31 28 = x.1 ∧ c &&& x.2 ≠ 0)) = true := by decide

theorem witness_ReservedBitsAreIllegal_none :
    [0x1FFFFFFF#32, 0x3FFFFFFF#32, 0x4FFFFFFF#32].map (fun c => c.extractLsb 31 28) = [0x1#4, 0x3#4, 0x4#4] := by decide

theorem witness_OutOfRangeOperandsDecodeAndFail :
    [.setimg 1025 1024, .setkrn 2 3, .setkrn 7 1, .ldw 5 0 0, .rdw 0 5, .rdreg 8].map Instr.wellFormed =
      List.replicate 6 false := by decide

theorem witness_StepRunsDecodedCommand :
    (presenting 0x60000000#32).pending = [.command 0x60000000#32, .command 0x90000000#32] ∧
      decode 0x60000000#32 = .ok .conv := by decide

theorem witness_IdleEngineStays : State.reset.pending = [] := by decide

/-- `EveryWordGetsOneResponse`, `RunIsTheFoldOfItsWords`, `StepKeepsRegistersLegal`, `StepNeverStops`. -/
theorem witness_registers_legal (c : Word) : (presenting c).RegistersLegal where
  imageFits := by show (1#14).toNat * (1#14).toNat ≤ 1048576; decide
  kernelDims := .inr ⟨.inl rfl, .inl rfl⟩
  outputFits := by show (0#14).toNat * (0#14).toNat ≤ 1048576; decide
  validOutput := fun h => by cases h
  noOutput := fun _ => ⟨rfl, rfl⟩

theorem witness_registers_legal_with_result : withResult.RegistersLegal where
  imageFits := by show (2#14).toNat * (1#14).toNat ≤ 1048576; decide
  kernelDims := .inr ⟨.inl rfl, .inl rfl⟩
  outputFits := by show (2#14).toNat * (1#14).toNat ≤ 1048576; decide
  validOutput := fun _ => by decide
  noOutput := fun h => by cases h

theorem witness_RunIsTheFoldOfItsWords :
    (presenting 0x60000000#32).pending = [0x60000000#32].map HostInput.command ++ [.command 0x90000000#32] := by decide

theorem witness_StepKeepsRegistersLegal : ∃ t, step (presenting 0x60000000#32) = .next t := ⟨_, rfl⟩

/-- `StepKeepsMemoriesLegal`, with a result in `OBUF` and a further cell written. -/
theorem witness_StepKeepsMemoriesLegal : withResult.MemoriesLegal ∧ ∃ t, step withResult = .next t :=
  ⟨{ ibufWf := by decide
     obufWf := by decide
     outputWritten := fun _ => by decide }, _, rfl⟩

theorem witness_HardwareResetFromAnyState :
    ({ withResult with pending := [.reset (some 0x60000000#32)] } : State).pending = .reset (some 0x60000000#32) :: [] := by
  decide

/-! #### One for each clause, where the clauses meet -/

theorem witness_SetimgEffect : (64#14).toNat * (16383#14).toNat ≤ 1048576 ∧ 1048576 < (65#14).toNat * (16383#14).toNat := by
  decide

theorem witness_SetkrnEffect :
    ((2#3).toNat % 2 = 0) ∧ ((7#3).toNat % 2 = 1 ∧ (1#3).toNat % 2 = 1 ∧ 5 < (7#3).toNat) ∧
      ((5#3).toNat % 2 = 1 ∧ (1#3).toNat % 2 = 1 ∧ (5#3).toNat ≤ 5 ∧ (1#3).toNat ≤ 5) := by decide

/-- `LdwEffect` and `RdwEffect`. -/
theorem witness_kernel_positions : (4#3).toNat = (4 : Fin 5).val ∧ (0#3).toNat = (0 : Fin 5).val ∧ 4 < (5#3).toNat := by
  decide

theorem witness_RdpxEffect :
    State.reset.ovalid = false ∧ withResult.ovalid = true ∧
      withResult.outW.toNat * withResult.outH.toNat ≤ (2#20).toNat ∧
      (1#20).toNat < withResult.outW.toNat * withResult.outH.toNat := by decide

theorem witness_RdregEffect : 8 ≤ (8#4).toNat := by decide

/-- `ConvFailureChangesNothing` and `ConvRunsThePseudocode`: each of the two errors, by each of its causes. -/
theorem witness_ConvFailureChangesNothing :
    (loaded 0 3 [] 2 2 []).kH = 0 ∧ (loaded 3 0 [] 2 2 []).kW = 0 ∧
      (loaded 3 3 [] 0 5 []).kH ≠ 0 ∧ (loaded 3 3 [] 0 5 []).kW ≠ 0 ∧ (loaded 3 3 [] 0 5 []).imgW = 0 ∧
      (loaded 3 3 [] 5 0 []).kH ≠ 0 ∧ (loaded 3 3 [] 5 0 []).kW ≠ 0 ∧ (loaded 3 3 [] 5 0 []).imgH = 0 := by decide

/-- `ConvRunsThePseudocode`, `ConvFrame`: a 3x3 kernel, the image at the capacity of the memory. -/
theorem witness_ConvReady : Spec.ConvReady (loaded 3 3 sharp 64 16383 []) :=
  ⟨.inr (.inl rfl), .inr (.inl rfl), by decide, by decide, by decide⟩

theorem witness_ConvFrame : (loaded 3 3 sharp 3 3 imageA).imgW.toNat * (loaded 3 3 sharp 3 3 imageA).imgH.toNat ≤ 9 := by
  decide

/-- Two states that differ in a weight outside the kernel, in a pixel outside the image and in the last result. -/
theorem witness_ConvDependsOnItsInputsAlone :
    let s := tiny 65536 7
    let s' : State := { loaded 1 1 [[65536, 5]] 1 1 [7, 9] with ovalid := true, outW := 1, outH := 1 }
    s ≠ s' ∧ (s.imgW = s'.imgW ∧ s.imgH = s'.imgH ∧ s.kH = s'.kH ∧ s.kW = s'.kW) ∧
      (∀ u v : Fin 5, u.val < s.kH.toNat → v.val < s.kW.toNat → s.weight u v = s'.weight u v) ∧
      (∀ a, a < s.imgW.toNat * s.imgH.toNat → s.readIbuf a = s'.readIbuf a) ∧ ∃ t, exec .conv s = .next t :=
  ⟨by decide, by decide, by decide, by decide, _, rfl⟩

theorem witness_ClampThenTruncate :
    (-1 : Int) < 0 ∧ (16711680 : Int) ≤ 16711680 ∧ (0 : Int) ≤ 16711679 ∧ (16711679 : Int) < 16711680 := by decide

theorem witness_UnitWeightShiftsTheImage :
    let s := loaded 3 3 [[0, 0, 65536]] 3 3 imageN
    Spec.ConvReady s ∧ (0 : Fin 5).val < s.kH.toNat ∧ (2 : Fin 5).val < s.kW.toNat ∧ s.weight 0 2 = 65536 ∧
      (∀ u' v' : Fin 5, u'.val < s.kH.toNat → v'.val < s.kW.toNat → (u', v') ≠ (0, 2) → s.weight u' v' = 0) ∧
      2 < s.imgH.toNat ∧ 0 < s.imgW.toNat :=
  ⟨⟨.inr (.inl rfl), .inr (.inl rfl), by decide, by decide, by decide⟩, by decide, by decide, by decide, by decide,
    by decide, by decide⟩

theorem witness_ZeroKernelGivesZero :
    let s := loaded 1 1 [[0, 5]] 3 3 imageN
    Spec.ConvReady s ∧ (∀ u v : Fin 5, u.val < s.kH.toNat → v.val < s.kW.toNat → s.weight u v = 0) ∧
      8 < s.imgW.toNat * s.imgH.toNat :=
  ⟨⟨.inl rfl, .inl rfl, by decide, by decide, by decide⟩, by decide, by decide⟩

/-- A uniform image of 255 (T9), whose one interior sample is at row 1, column 1. -/
theorem witness_BoxBlurKeepsUniformInterior :
    let s := loaded 3 3 (List.replicate 3 (List.replicate 3 7282)) 3 3 (List.replicate 9 255)
    Spec.ConvReady s ∧ s.kH = 3 ∧ s.kW = 3 ∧ (∀ u v : Fin 5, u.val < 3 → v.val < 3 → s.weight u v = 7282) ∧
      (∀ a, a < s.imgW.toNat * s.imgH.toNat → s.readIbuf a = 255) ∧ 1 + 1 < s.imgH.toNat ∧ 1 + 1 < s.imgW.toNat :=
  ⟨⟨.inr (.inl rfl), .inr (.inl rfl), by decide, by decide, by decide⟩, by decide, by decide, by decide, by decide,
    by decide, by decide⟩

/-- `FailingCommandChangesNothing`, `FirstErrorIsReported`, `ResponseCodesAreLegal`: the word of T25's last line. -/
theorem witness_FailingCommandChangesNothing :
    ∃ t, execWord 0x2000005A#32 withResult = .next t ∧ t.responses = withResult.responses ++ [0x40000000#32] ∧
      rspError 0x40000000#32 ≠ 0 := ⟨_, rfl, by decide, by decide⟩

theorem witness_ResponseCodesAreLegal :
    ∃ t, execWord 0x500FFFFF#32 State.reset = .next t ∧ t.responses = [] ++ [0x60000000#32] ∧
      rspError 0x60000000#32 ≠ 0 := ⟨_, rfl, by decide, by decide⟩

/-- The six cases of `OutOfRange`, and the neighbour of each that is none. -/
theorem witness_OutOfRangeExactlyWhen :
    ([.setimg 65 16383, .setkrn 7 1, .ldw 5 0 0, .rdw 0 5, .rdreg 8, .rdpx 2, .setimg 64 16383, .setkrn 5 1, .ldw 4 0 0,
        .rdw 0 4, .rdreg 7, .rdpx 1] : List Instr).map (fun i => (answer (after i withResult)).map rspError) =
      List.replicate 6 (some 5) ++ List.replicate 6 (some 0) := by decide

theorem witness_EachPieceOfStateHasItsWriters : ∃ t, exec .conv withResult = .next t := ⟨_, rfl⟩

theorem witness_OvalidChangesOnlyAsStated :
    (after .conv (tiny 65536 7)).ovalid = true ∧ (after .conv State.reset).ovalid = false ∧
      (after .conv { withResult with kH := 0, kW := 0 }).ovalid = true ∧ (after .srst withResult).ovalid = false ∧
      decode 0x90000000#32 = .ok .srst ∧ decode 0x60000000#32 = .ok .conv ∧ decode 0x00000000#32 = .ok .nop := by decide

theorem witness_ReadsAndWritesAreIdempotent :
    (∃ t, exec (.rdpx 1) withResult = .next t) ∧ ∃ t, exec .conv withResult = .next t := ⟨⟨_, rfl⟩, _, rfl⟩

/-- A pixel written after the `CONV`, and a `CONV` that fails. -/
theorem witness_ResultStaysReadable :
    (∃ t, execWord 0x46400000#32 withResult = .next t ∧ t.responses = withResult.responses ++ [0x00000000#32]) ∧
      decode 0x46400000#32 = .ok (.ldpx 0 100) ∧
      (∃ t, execWord 0x60000000#32 { withResult with imgW := 0 } = .next t ∧
        t.responses = withResult.responses ++ [0x20000000#32]) ∧
      rspError 0x20000000#32 ≠ 0 := ⟨⟨_, rfl, by decide⟩, by decide, ⟨_, rfl, by decide⟩, by decide⟩

theorem witness_NoResultBeforeConv :
    State.reset.ovalid = false ∧ (∀ c ∈ [0x40700000#32, 0x20000009#32, 0xA0000000#32], decode c ≠ .ok .conv) ∧
      ∃ t, runWords [0x40700000#32, 0x20000009#32, 0xA0000000#32] State.reset = some t :=
  ⟨by decide, (by intro c h; fin_cases h <;> decide), _, rfl⟩

theorem witness_QuantisationIsNearestAndOdd : 0 < 9 := by decide

theorem witness_ImageProgramLoadsTheImage :
    Asm.assemble (.image 2 1 [7, 255]) = some [.setimg 2 1, .ldpx 0 7, .ldpx 1 255] ∧ 2 * 1 ≤ 1048576 := by decide

/-- Both sides of the equivalence, and a pair of intermediates that are not 0 (T23's last column). -/
theorem witness_DegenerateExactlyWhenAllZero :
    (FilterBank.sobelCombine [0, 0] [0, 0]).2 = true ∧ (FilterBank.sobelCombine [0, 150] [0, 0]).2 = false := by decide

/-- The middle row of T23's intermediates: the largest sum is that of the last column. -/
theorem witness_SobelSamplesFollowTheSteps :
    let ex : List Pixel := [0, 150, 200]
    let ey : List Pixel := [0, 0, 200]
    ex.length = ey.length ∧ (0 < 80000) ∧
      (∀ (j : Nat) (x y : Pixel), ex[j]? = some x → ey[j]? = some y → x.toNat ^ 2 + y.toNat ^ 2 ≤ 80000) ∧
      (∃ (j : Nat) (x y : Pixel), ex[j]? = some x ∧ ey[j]? = some y ∧ x.toNat ^ 2 + y.toNat ^ 2 = 80000) ∧
      ((10 * 135 + 1) ^ 2 * 80000 ≤ 6502500 * 22500 ∧ 6502500 * 22500 ≤ (10 * 135 + 9) ^ 2 * 80000) := by
  refine ⟨rfl, by decide, fun j x y hx hy => ?_, ⟨2, 200, 200, rfl, rfl, by decide⟩, by decide⟩
  match j with
  | 0 => cases hx; cases hy; decide
  | 1 => cases hx; cases hy; decide
  | 2 => cases hx; cases hy; decide
  | _ + 3 => cases hx

theorem witness_ApplyAllGivesSixResultsInOrder :
    ((FilterBank.applyAll (fun _ _ _ => .abort) ⟨1, 1, [0]⟩ State.reset).map fun x => x.1.toOption.isSome) = some true := by decide

/-- The largest image in each direction, and the smallest. -/
theorem witness_ApplyAllSucceedsOnEveryValidImage :
    (List.replicate (16383 * 64) (7 : Pixel)).length = 16383 * 64 ∧ 1 ≤ 64 ∧ 16383 * 64 ≤ 1048576 ∧
      [(7 : Pixel)].length = 1 * 1 :=
  ⟨List.length_replicate, by decide, by decide, rfl⟩

theorem witness_EmptyImageNeverReachesTheEngine :
    (⟨0, 5, []⟩ : FilterBank.PixelBuffer).width = 0 ∧ (⟨5, 0, []⟩ : FilterBank.PixelBuffer).height = 0 := by decide

/-- A caller that skips every filter but Sharpen, at which it aborts. -/
def selective : FilterBank.Caller := fun _ name _ => if name = "Sharpen" then .abort else .skip

theorem witness_EngineErrorsReachTheCaller :
    State.reset.imgW = 0 ∧ (loaded 1 1 [] 5 0 []).imgH = 0 ∧
      (["Box Blur", "Edge Detection", "Sharpen", "High Pass", "Low Pass"].map fun name => selective [] name 2) =
        [.skip, .skip, .abort, .skip, .skip] := by decide

theorem witness_EngineErrorsReachTheCaller_skip (name : String) :
    (fun _ _ _ => .skip : FilterBank.Caller) [] name 2 = .skip := rfl

theorem witness_CommandFilesAreLittleEndian : [0x32450000#32, 0x60000000#32][1]? = some 0x60000000#32 := by decide

end Sys2Proof.Tests
end

/-! SUPPORT and settled statements of 00_scope.md: what a command word does at the two channels, from which states it is
answered, that what the host presents later has no part in it, and the bound of the raw sum. -/

namespace Sys2Proof.Machine

/-! ### The registers' legal values (10_state.md R30) -/

/-- The registers of which `RegistersLegal` speaks. -/
def State.legalityRegisters (s : State) : Dim × Dim × Bits3 × Bits3 × Dim × Dim × Bool :=
  (s.imgW, s.imgH, s.kH, s.kW, s.outW, s.outH, s.ovalid)

/-- Legality depends on those registers alone: an update that leaves them as they are keeps it, by `rfl`. -/
theorem State.RegistersLegal.of_legalityRegisters_eq {s t : State} (hs : s.RegistersLegal)
    (h : t.legalityRegisters = s.legalityRegisters) : t.RegistersLegal := by
  simp only [State.legalityRegisters, Prod.mk.injEq] at h
  obtain ⟨himgW, himgH, hkH, hkW, houtW, houtH, hovalid⟩ := h
  obtain ⟨imageFits, kernelDims, outputFits, validOutput, noOutput⟩ := hs
  rw [← himgW, ← himgH] at imageFits
  rw [← hkH, ← hkW] at kernelDims
  rw [← houtW, ← houtH] at outputFits validOutput noOutput
  rw [← hovalid] at validOutput noOutput
  exact ⟨imageFits, kernelDims, outputFits, validOutput, noOutput⟩

theorem legalKernelDim_iff {k : Bits3} : legalKernelDim k ↔ k.toNat % 2 = 1 ∧ k.toNat ≤ 5 := by
  unfold legalKernelDim
  revert k
  decide

theorem State.RegistersLegal.kernelDims_le {s : State} (hs : s.RegistersLegal) :
    s.kH.toNat ≤ 5 ∧ s.kW.toNat ≤ 5 := by
  obtain ⟨hh, hw⟩ | ⟨hh, hw⟩ := hs.kernelDims
  · simp [hh, hw]
  · exact ⟨(legalKernelDim_iff.1 hh).2, (legalKernelDim_iff.1 hw).2⟩

theorem State.RegistersLegal.setImage {s : State} (hs : s.RegistersLegal) {w h : Dim}
    (hb : w.toNat * h.toNat ≤ Config.bufPixels) : (s.setImage w h).RegistersLegal :=
  ⟨hb, hs.kernelDims, hs.outputFits, hs.validOutput, hs.noOutput⟩

theorem State.RegistersLegal.setKernel {s : State} (hs : s.RegistersLegal) {kh kw : Bits3}
    (hh : legalKernelDim kh) (hw : legalKernelDim kw) : (s.setKernel kh kw).RegistersLegal :=
  ⟨hs.imageFits, .inr ⟨hh, hw⟩, hs.outputFits, hs.validOutput, hs.noOutput⟩

theorem State.RegistersLegal.publish {s : State} (hs : s.RegistersLegal) (hi : ¬ (s.imgW = 0 ∨ s.imgH = 0))
    (ps : List Pixel) : (s.publish ps).RegistersLegal where
  imageFits := hs.imageFits
  kernelDims := hs.kernelDims
  outputFits := hs.imageFits
  validOutput _ := by
    rw [State.publish_outW, State.publish_outH]
    bv_omega
  noOutput h := by simp at h

theorem State.clearRegisters_registersLegal (s : State) : s.clearRegisters.RegistersLegal where
  imageFits := by simp
  kernelDims := .inl ⟨rfl, rfl⟩
  outputFits := by simp
  validOutput h := by simp at h
  noOutput _ := ⟨rfl, rfl⟩

/-- Every command keeps the registers legal (10_state.md R30). -/
theorem exec_keeps_registersLegal {i : Instr} {s t : State} (hs : s.RegistersLegal) (h : exec i s = .next t) :
    t.RegistersLegal := by
  obtain ⟨e, rfl, -⟩ | effect := exec_next h
  · exact hs.of_legalityRegisters_eq rfl
  cases i with
  | nop => cases h; exact hs.of_legalityRegisters_eq rfl
  | setimg w h =>
    obtain ⟨hb, rfl⟩ := effect
    exact (hs.setImage hb).of_legalityRegisters_eq rfl
  | setkrn kh kw =>
    obtain ⟨hoddH, hoddW, hleH, hleW, rfl⟩ := effect
    have hh : legalKernelDim kh := legalKernelDim_iff.2 ⟨hoddH, hleH⟩
    have hw : legalKernelDim kw := legalKernelDim_iff.2 ⟨hoddW, hleW⟩
    exact (hs.setKernel hh hw).of_legalityRegisters_eq rfl
  | ldw u v n => obtain ⟨row, col, -, -, rfl⟩ := effect; exact hs.of_legalityRegisters_eq rfl
  | ldpx a p => cases h; exact hs.of_legalityRegisters_eq rfl
  | rdpx a => obtain ⟨-, -, rfl⟩ := effect; exact hs.of_legalityRegisters_eq rfl
  | conv =>
    obtain ⟨-, hi, -, -, -, rfl⟩ := effect
    exact (hs.publish hi s.convImage).of_legalityRegisters_eq rfl
  | rdreg r => obtain ⟨reg, -, rfl⟩ := effect; exact hs.of_legalityRegisters_eq rfl
  | rdw u v => obtain ⟨row, col, -, -, rfl⟩ := effect; exact hs.of_legalityRegisters_eq rfl
  | srst => cases h; exact s.clearRegisters_registersLegal.of_legalityRegisters_eq rfl

theorem execWord_keeps_registersLegal {c : Word} {s t : State} (hs : s.RegistersLegal)
    (h : execWord c s = .next t) : t.RegistersLegal := by
  obtain ⟨i, -, e⟩ | ⟨-, e⟩ := execWord_cases c s <;> rw [e] at h
  · exact exec_keeps_registersLegal hs h
  · cases h
    exact hs.of_legalityRegisters_eq rfl

/-! ### From legal registers every command is answered (00_scope.md R16) -/

theorem execConv_answers {s : State} (hh : s.kH.toNat ≤ 5) (hw : s.kW.toNat ≤ 5)
    (hb : s.imgW.toNat * s.imgH.toNat ≤ Config.bufPixels) : ∃ t, execConv s = .next t := by
  by_cases hk : s.kH = 0 ∨ s.kW = 0
  · exact ⟨_, if_pos hk⟩
  by_cases hi : s.imgW = 0 ∨ s.imgH = 0
  · exact ⟨_, by rw [execConv, if_neg hk, if_pos hi]⟩
  · exact ⟨_, execConv_success hk hi hh hw hb⟩

theorem exec_answers (i : Instr) {s : State} (hs : s.RegistersLegal) : ∃ t, exec i s = .next t := by
  cases i with
  | nop => exact ⟨_, rfl⟩
  | setimg w h => obtain ⟨-, e⟩ | ⟨-, e⟩ := execSetimg_cases w h s <;> exact ⟨_, e⟩
  | setkrn kh kw =>
    obtain ⟨-, e⟩ | ⟨-, -, -, e⟩ | ⟨-, -, -, -, e⟩ := execSetkrn_cases kh kw s <;> exact ⟨_, e⟩
  | ldw u v n => obtain ⟨-, e⟩ | ⟨_, _, -, -, e⟩ := execLdw_cases u v n s <;> exact ⟨_, e⟩
  | ldpx a p => exact ⟨_, rfl⟩
  | rdpx a => obtain ⟨-, e⟩ | ⟨-, -, e⟩ | ⟨-, -, e⟩ := execRdpx_cases a s <;> exact ⟨_, e⟩
  | conv =>
    obtain ⟨hh, hw⟩ := hs.kernelDims_le
    exact execConv_answers hh hw hs.imageFits
  | rdreg r => obtain ⟨-, e⟩ | ⟨_, -, e⟩ := execRdreg_cases r s <;> exact ⟨_, e⟩
  | rdw u v => obtain ⟨-, e⟩ | ⟨_, _, -, -, e⟩ := execRdw_cases u v s <;> exact ⟨_, e⟩
  | srst => exact ⟨_, rfl⟩

theorem execWord_answers (c : Word) {s : State} (hs : s.RegistersLegal) : ∃ t, execWord c s = .next t := by
  obtain ⟨i, -, e⟩ | ⟨-, e⟩ := execWord_cases c s
  · rw [e]; exact exec_answers i hs
  · exact ⟨_, e⟩

/-! ### What an answered command does at the channels (00_scope.md R16) -/

/-- The channels of `t` are those of `s` with one response more; nothing is taken from what the host presents, and there
was no hardware reset. -/
structure State.AnsweredOnce (s t : State) : Prop where
  response : ∃ r, t.responses = s.responses ++ [r]
  pending : t.pending = s.pending
  resets : t.resets = s.resets

theorem exec_answeredOnce {i : Instr} {s t : State} (h : exec i s = .next t) : s.AnsweredOnce t := by
  obtain ⟨e, rfl, -⟩ | effect := exec_next h
  · exact ⟨⟨_, rfl⟩, rfl, rfl⟩
  cases i with
  | nop | ldpx _ _ | srst => cases h; exact ⟨⟨_, rfl⟩, rfl, rfl⟩
  | setimg w h => obtain ⟨-, rfl⟩ := effect; exact ⟨⟨_, rfl⟩, rfl, rfl⟩
  | setkrn kh kw => obtain ⟨-, -, -, -, rfl⟩ := effect; exact ⟨⟨_, rfl⟩, rfl, rfl⟩
  | ldw _ _ _ | rdw _ _ => obtain ⟨row, col, -, -, rfl⟩ := effect; exact ⟨⟨_, rfl⟩, rfl, rfl⟩
  | rdpx a => obtain ⟨-, -, rfl⟩ := effect; exact ⟨⟨_, rfl⟩, rfl, rfl⟩
  | conv => obtain ⟨-, -, -, -, -, rfl⟩ := effect; exact ⟨⟨_, rfl⟩, rfl, rfl⟩
  | rdreg r => obtain ⟨reg, -, rfl⟩ := effect; exact ⟨⟨_, rfl⟩, rfl, rfl⟩

theorem execWord_answeredOnce {c : Word} {s t : State} (h : execWord c s = .next t) : s.AnsweredOnce t := by
  obtain ⟨i, -, e⟩ | ⟨-, e⟩ := execWord_cases c s <;> rw [e] at h
  · exact exec_answeredOnce h
  · cases h
    exact ⟨⟨_, rfl⟩, rfl, rfl⟩

/-! ### What the host presents later has no part in a command (00_scope.md R18) -/

/-- The outcome, the host presenting `p` afterwards. -/
def outcomePresenting (p : List HostInput) :
    Host.Outcome State Fault Refusal → Host.Outcome State Fault Refusal
  | .next t => .next { t with pending := p }
  | .fault r => .fault r
  | .refused r => .refused r

theorem exec_presenting (i : Instr) (s : State) (p : List HostInput) :
    exec i { s with pending := p } = outcomePresenting p (exec i s) := by
  cases i with
  | nop | ldpx _ _ | srst => rfl
  | setimg w h => simp only [exec, execSetimg]; split <;> rfl
  | setkrn kh kw => simp only [exec, execSetkrn]; split_ifs <;> rfl
  | ldw u v n => simp only [exec, execLdw]; cases kernelIndex u <;> cases kernelIndex v <;> rfl
  | rdpx a => simp only [exec, execRdpx]; split_ifs <;> rfl
  | conv => simp only [exec, execConv]; split_ifs <;> rfl
  | rdreg r => simp only [exec, execRdreg]; cases CtrlReg.ofNumber r with
    | none => rfl
    | some reg => cases reg <;> rfl
  | rdw u v => simp only [exec, execRdw]; cases kernelIndex u <;> cases kernelIndex v <;> rfl

theorem execWord_presenting (c : Word) (s : State) (p : List HostInput) :
    execWord c { s with pending := p } = outcomePresenting p (execWord c s) := by
  unfold execWord
  cases decode c with
  | ok i => exact exec_presenting i s p
  | error reason => rfl

/-! ### Steps and runs -/

theorem step_of_command {s : State} {c : Word} {rest : List HostInput} (h : s.pending = .command c :: rest) :
    step s = execWord c { s with pending := rest } := by
  simp only [step, State.takeInput, h]

theorem core_run_succ_of_step_next {M : Host.Core} {s t : M.State} (n : Nat) (h : M.step s = .next t) :
    M.run (n + 1) s = M.run n t := by
  simp only [Host.Core.run, h]

theorem runWords_cons_of_next {c : Word} {s t : State} (cs : List Word) (h : execWord c s = .next t) :
    runWords (c :: cs) s = runWords cs t := by
  rw [runWords, h]

/-- A presented word, from legal registers: the step answers it once, takes it from the channel and keeps the registers
legal. -/
theorem step_answers_command {s : State} {c : Word} {rest : List HostInput} (hs : s.RegistersLegal)
    (h : s.pending = .command c :: rest) :
    ∃ t r, step s = .next t ∧ t.responses = s.responses ++ [r] ∧ t.pending = rest ∧ t.resets = s.resets ∧
      t.RegistersLegal := by
  have hs' : State.RegistersLegal { s with pending := rest } := hs.of_legalityRegisters_eq rfl
  obtain ⟨t, ht⟩ := execWord_answers c hs'
  obtain ⟨⟨r, hresponse⟩, hpending, hresets⟩ := execWord_answeredOnce ht
  exact ⟨t, r, (step_of_command h).trans ht, hresponse, hpending, hresets, execWord_keeps_registersLegal hs' ht⟩

/-- The step's effect on a presented word is that of the word alone, whatever is presented after it. -/
theorem execWord_of_step_next {s t : State} {c : Word} {rest : List HostInput} (h : s.pending = .command c :: rest)
    (hstep : step s = .next t) (p : List HostInput) :
    execWord c { s with pending := p } = .next { t with pending := p } := by
  rw [step_of_command h] at hstep
  exact (execWord_presenting c { s with pending := rest } p).trans (congrArg (outcomePresenting p) hstep)

/-! ### The raw sum's bound (00_scope.md R12, 42_convolve.md R115) -/

theorem State.weight_abs_le (s : State) (u v : Fin 5) : |(s.weight u v).toInt| ≤ 2097152 := by
  have hlow := (s.weight u v).le_toInt
  have hhigh := (s.weight u v).toInt_lt
  rw [abs_le]
  omega

theorem State.lane_abs_le (s : State) (i j : Nat) (u v : Fin 5) : |s.lane i j u v| ≤ 2097152 * 255 := by
  by_cases hactive : u.val < s.kH.toNat ∧ v.val < s.kW.toNat
  · obtain ⟨hu, hv⟩ := hactive
    obtain ⟨hlow, hhigh⟩ := s.sample_bounds ((i : Int) + u.val - pad s.kH) ((j : Int) + v.val - pad s.kW)
    rw [State.lane_active hu hv, abs_mul]
    exact mul_le_mul (s.weight_abs_le u v) (by rwa [abs_of_nonneg hlow]) (abs_nonneg _) (by decide)
  · rw [State.lane_inactive hactive]
    decide

theorem State.rawSum_abs_le (s : State) (i j : Nat) : |s.rawSum i j| ≤ 25 * (2097152 * 255) := by
  rw [State.rawSum_eq_sum]
  calc |∑ u : Fin 5, ∑ v : Fin 5, s.lane i j u v|
      ≤ ∑ u : Fin 5, ∑ v : Fin 5, |s.lane i j u v| :=
        (Finset.abs_sum_le_sum_abs _ _).trans (Finset.sum_le_sum fun _ _ => Finset.abs_sum_le_sum_abs _ _)
    _ ≤ ∑ _u : Fin 5, ∑ _v : Fin 5, (2097152 * 255 : Int) :=
        Finset.sum_le_sum fun u _ => Finset.sum_le_sum fun v _ => s.lane_abs_le i j u v
    _ = 25 * (2097152 * 255) := by simp

/-! ### The statements -/

/-- Settles O11, from `step_answers_command`. -/
theorem everyWordGetsOneResponse : Obligations.EveryWordGetsOneResponse := by
  intro s c rest hs hp
  obtain ⟨t, r, hstep, hresponse, hpending, hresets, -⟩ := step_answers_command hs hp
  exact ⟨t, r, hstep, hresponse, hpending, hresets⟩

/-- Settles O12, by induction on the words: each step is the fold's step with the later words still presented, which by
`execWord_of_step_next` makes no difference. -/
theorem runIsTheFoldOfItsWords : Obligations.RunIsTheFoldOfItsWords := by
  intro cs rest
  induction cs with
  | nil =>
    intro s _ hp
    obtain rfl : s.pending = rest := hp
    exact ⟨s, rfl, rfl, rfl, rfl⟩
  | cons c cs ih =>
    intro s hs hp
    obtain ⟨u, r, hstep, hresponse, hpending, -, hu⟩ := step_answers_command hs hp
    obtain ⟨t, hrun, hfold, hrest, hcount⟩ := ih u hu hpending
    have hword := execWord_of_step_next hp hstep rest
    refine ⟨t, (core_run_succ_of_step_next cs.length hstep).trans hrun,
      (runWords_cons_of_next cs hword).trans hfold, hrest, ?_⟩
    rw [hcount, hresponse, List.length_append, List.length_singleton, List.length_cons]
    omega

/-- Settles O30, from the bound `25 * 2^21 * 255` of 25 lanes. -/
theorem rawSumFitsAccumulator : Obligations.RawSumFitsAccumulator := by
  intro s i j
  have hbound := abs_le.1 (s.rawSum_abs_le i j)
  omega

/-- Settles O9: the step takes the word from the channel, and its decoding chooses `exec`. -/
theorem stepRunsDecodedCommand : Obligations.StepRunsDecodedCommand := by
  intro s c rest i hp hdecode
  rw [step_of_command hp, execWord, hdecode]

/-- Settles O10: of the three cases of a step, only the idle one has nothing pending. -/
theorem idleEngineStays : Obligations.IdleEngineStays := by
  intro s hp
  obtain ⟨-, hstep⟩ | ⟨c, rest, hp', -⟩ | ⟨p, rest, hp', -⟩ := step_cases s
  · exact hstep
  · exact absurd (hp.symm.trans hp') (by simp)
  · exact absurd (hp.symm.trans hp') (by simp)

end Sys2Proof.Machine

/-! SUPPORT and settled statements of 10_state.md: which command writes which piece of state, the invariants of the
registers and of the memories under every step, the values after reset, and what the result of `CONV` depends on. -/

namespace Sys2Proof.Machine

/-! ### Every step keeps an invariant (10_state.md R30) -/

/-- The induction over a machine's inputs, said once: a predicate that is not about what the host presents is kept by
every step if every command word and the hardware reset keep it. -/
theorem step_keeps {P : State → Prop} (hpending : ∀ s rest, P s → P { s with pending := rest })
    (hword : ∀ c s t, P s → execWord c s = .next t → P t) (hreset : ∀ s p, P s → P (s.hardReset p))
    {s t : State} (hs : P s) (h : step s = .next t) : P t := by
  obtain ⟨-, e⟩ | ⟨c, rest, -, e⟩ | ⟨p, rest, -, e⟩ := step_cases s <;> rw [e] at h
  · cases h
    exact hs
  · exact hword c _ t (hpending s rest hs) h
  · cases h
    exact hreset _ p (hpending s rest hs)

theorem reset_registersLegal : State.reset.RegistersLegal :=
  (State.clearRegisters_registersLegal State.reset).of_legalityRegisters_eq rfl

/-- Settles O39: each command word keeps the registers legal, and a hardware reset clears them all. -/
theorem stepKeepsRegistersLegal : Obligations.StepKeepsRegistersLegal := by
  refine ⟨reset_registersLegal, fun s t hs h => ?_⟩
  refine step_keeps (P := State.RegistersLegal) ?_ ?_ ?_ hs h
  · exact fun s rest hs => hs.of_legalityRegisters_eq rfl
  · exact fun c s t hs h => execWord_keeps_registersLegal hs h
  · exact fun s p _ => s.clearRegisters_registersLegal.of_legalityRegisters_eq rfl

/-! ### The writers of each piece of state (10_state.md R20) -/

/-- Settles O42: a command that fails changes none of it, and the effect of one that succeeds is an update of the
fields it is named for. -/
theorem eachPieceOfStateHasItsWriters : Obligations.EachPieceOfStateHasItsWriters := by
  intro i s t h
  obtain ⟨e, rfl, -⟩ | effect := exec_next h
  · simp
  cases i with
  | nop | ldpx _ _ | srst => cases h; simp
  | setimg w h => obtain ⟨-, rfl⟩ := effect; simp
  | setkrn kh kw => obtain ⟨-, -, -, -, rfl⟩ := effect; simp
  | ldw _ _ _ | rdw _ _ => obtain ⟨row, col, -, -, rfl⟩ := effect; simp
  | rdpx a => obtain ⟨-, -, rfl⟩ := effect; simp
  | conv => obtain ⟨-, -, -, -, -, rfl⟩ := effect; simp
  | rdreg r => obtain ⟨reg, -, rfl⟩ := effect; simp

/-! ### The pixel memories and the result in `OBUF` (10_state.md R26, R34) -/

/-- The pieces of state of which `MemoriesLegal` speaks. -/
def State.memoriesAndOutput (s : State) : Memory × Memory × Dim × Dim × Bool :=
  (s.ibuf, s.obuf, s.outW, s.outH, s.ovalid)

/-- Legality of the memories depends on those pieces alone. -/
theorem State.MemoriesLegal.of_memoriesAndOutput_eq {s t : State} (hs : s.MemoriesLegal)
    (h : t.memoriesAndOutput = s.memoriesAndOutput) : t.MemoriesLegal := by
  simp only [State.memoriesAndOutput, Prod.mk.injEq] at h
  obtain ⟨hibuf, hobuf, houtW, houtH, hovalid⟩ := h
  obtain ⟨ibufWf, obufWf, outputWritten⟩ := hs
  rw [← hibuf] at ibufWf
  rw [← hobuf] at obufWf
  rw [← hobuf, ← houtW, ← houtH, ← hovalid] at outputWritten
  exact ⟨ibufWf, obufWf, outputWritten⟩

theorem State.MemoriesLegal.writeIbuf {s : State} (hs : s.MemoriesLegal) {a : Nat} (ha : a < Config.bufPixels)
    (p : Pixel) : (s.writeIbuf a p).MemoriesLegal :=
  ⟨Memory.wf_write p hs.ibufWf ha, hs.obufWf, hs.outputWritten⟩

/-- The output image of `CONV` has a pixel for every cell of the published size. -/
theorem State.MemoriesLegal.publish_convImage {s : State} (hs : s.MemoriesLegal)
    (hb : s.imgW.toNat * s.imgH.toNat ≤ Config.bufPixels) : (s.publish s.convImage).MemoriesLegal where
  ibufWf := hs.ibufWf
  obufWf := Memory.wf_writeBlock hs.obufWf (by rwa [State.convImage_length])
  outputWritten _ a ha := by
    have hlt : a < s.convImage.length := by rwa [State.convImage_length]
    rw [State.publish_obuf, Memory.lookup_writeBlock, if_pos hlt, List.getElem?_eq_getElem hlt]
    rfl

theorem State.MemoriesLegal.clearRegisters {s : State} (hs : s.MemoriesLegal) : s.clearRegisters.MemoriesLegal where
  ibufWf := hs.ibufWf
  obufWf := hs.obufWf
  outputWritten h := by simp at h

theorem State.memoriesLegal_of_nothing_written {s : State} (hi : s.ibuf = []) (ho : s.obuf = [])
    (hv : s.ovalid = false) : s.MemoriesLegal where
  ibufWf := by rw [hi]; exact Memory.wf_nil
  obufWf := by rw [ho]; exact Memory.wf_nil
  outputWritten h := by rw [hv] at h; cases h

/-- Every command keeps the memories legal: three write one of the pieces of state in question, the others none. -/
theorem exec_keeps_memoriesLegal {i : Instr} {s t : State} (hs : s.MemoriesLegal) (h : exec i s = .next t) :
    t.MemoriesLegal := by
  obtain ⟨e, rfl, -⟩ | effect := exec_next h
  · exact hs.of_memoriesAndOutput_eq rfl
  cases i with
  | ldpx a p =>
    cases h
    exact (hs.writeIbuf a.isLt p).of_memoriesAndOutput_eq rfl
  | conv =>
    obtain ⟨-, -, -, -, hb, rfl⟩ := effect
    exact (hs.publish_convImage hb).of_memoriesAndOutput_eq rfl
  | srst =>
    cases h
    exact hs.clearRegisters.of_memoriesAndOutput_eq rfl
  | nop | setimg _ _ | setkrn _ _ | ldw _ _ _ | rdpx _ | rdreg _ | rdw _ _ =>
    obtain ⟨-, -, -, houtput, hibuf, hobuf, -⟩ := eachPieceOfStateHasItsWriters _ s t h
    obtain ⟨houtW, houtH, hovalid⟩ := houtput (by simp) (by simp)
    apply hs.of_memoriesAndOutput_eq
    rw [State.memoriesAndOutput, hibuf (by simp), hobuf (by simp), houtW, houtH, hovalid, State.memoriesAndOutput]

theorem execWord_keeps_memoriesLegal {c : Word} {s t : State} (hs : s.MemoriesLegal)
    (h : execWord c s = .next t) : t.MemoriesLegal := by
  obtain ⟨i, -, e⟩ | ⟨-, e⟩ := execWord_cases c s <;> rw [e] at h
  · exact exec_keeps_memoriesLegal hs h
  · cases h
    exact hs.of_memoriesAndOutput_eq rfl

/-- Settles O40: each command word keeps the memories legal, and after a hardware reset nothing is written in them. -/
theorem stepKeepsMemoriesLegal : Obligations.StepKeepsMemoriesLegal := by
  intro s t hs h
  refine step_keeps (P := State.MemoriesLegal) ?_ ?_ ?_ hs h
  · exact fun s rest hs => hs.of_memoriesAndOutput_eq rfl
  · exact fun c s t hs h => execWord_keeps_memoriesLegal hs h
  · exact fun s p _ => State.memoriesLegal_of_nothing_written rfl rfl rfl

/-- Settles O38: the registers after reset are the cleared ones, and nothing is written. -/
theorem invariantHoldsAtReset : Obligations.InvariantHoldsAtReset :=
  ⟨reset_registersLegal, State.memoriesLegal_of_nothing_written rfl rfl rfl⟩

/-! ### What `CONV` depends on (10_state.md R35, 42_convolve.md R116) -/

/-- Two states with the same inputs of `CONV`: the dimension registers it reads, the weights inside the kernel and the
cells of the image. -/
structure State.SameConvInputs (s s' : State) : Prop where
  imgW : s.imgW = s'.imgW
  imgH : s.imgH = s'.imgH
  kH : s.kH = s'.kH
  kW : s.kW = s'.kW
  weights : ∀ u v : Fin 5, u.val < s.kH.toNat → v.val < s.kW.toNat → s.weight u v = s'.weight u v
  pixels : ∀ a, a < s.imgW.toNat * s.imgH.toNat → s.readIbuf a = s'.readIbuf a

/-- A neighbour inside the image is at one of the image's cells, and one outside is never read. -/
theorem State.SameConvInputs.sample_eq {s s' : State} (h : s.SameConvInputs s') (y x : Int) :
    s.sample y x = s'.sample y x := by
  by_cases hin : 0 ≤ y ∧ y < s.imgH.toNat ∧ 0 ≤ x ∧ x < s.imgW.toNat
  · obtain ⟨hy0, hy, hx0, hx⟩ := hin
    lift y to Nat using hy0
    lift x to Nat using hx0
    have hy : y < s.imgH.toNat := by omega
    have hx : x < s.imgW.toNat := by omega
    have hcell : y * s.imgW.toNat + x < s.imgW.toNat * s.imgH.toNat := by nlinarith
    rw [State.sample_inside hy hx, State.sample_inside (h.imgH ▸ hy) (h.imgW ▸ hx), h.pixels _ hcell, h.imgW]
  · rw [State.sample_outside (by omega), State.sample_outside (by rw [← h.imgH, ← h.imgW]; omega)]

theorem State.SameConvInputs.lane_eq {s s' : State} (h : s.SameConvInputs s') (i j : Nat) (u v : Fin 5) :
    s.lane i j u v = s'.lane i j u v := by
  by_cases hactive : u.val < s.kH.toNat ∧ v.val < s.kW.toNat
  · obtain ⟨hu, hv⟩ := hactive
    rw [State.lane_active hu hv, State.lane_active (h.kH ▸ hu) (h.kW ▸ hv), h.weights u v hu hv, h.sample_eq, h.kH,
      h.kW]
  · rw [State.lane_inactive hactive, State.lane_inactive (by rwa [← h.kH, ← h.kW])]

theorem State.SameConvInputs.outSample_eq {s s' : State} (h : s.SameConvInputs s') (i j : Nat) :
    s.outSample i j = s'.outSample i j := by
  simp only [State.outSample, State.rawSum_eq_sum, h.lane_eq]

/-- Code 0 is success and nothing else (60_exceptions.md R160). -/
@[simp] theorem ErrorCode.code_eq_zero_iff {e : ErrorCode} : e.code = 0#4 ↔ e = .ok := by
  cases e <;> decide

theorem execConv_of_no_kernel {s : State} (hk : s.kH = 0 ∨ s.kW = 0) :
    execConv s = .next (s.raise .invalidKernel) := if_pos hk

theorem execConv_of_empty_image {s : State} (hk : ¬ (s.kH = 0 ∨ s.kW = 0)) (hi : s.imgW = 0 ∨ s.imgH = 0) :
    execConv s = .next (s.raise .emptyImage) := by
  rw [execConv, if_neg hk, if_pos hi]

/-- Settles O27: the checks of `CONV` read the dimension registers alone, and each output sample reads the kernel's
weights and the image's cells alone (`SameConvInputs.outSample_eq`). -/
theorem convDependsOnItsInputsAlone : Obligations.ConvDependsOnItsInputsAlone := by
  intro s s' t himgW himgH hkH hkW hweights hpixels h
  have hsame : s.SameConvInputs s' := ⟨himgW, himgH, hkH, hkW, hweights, hpixels⟩
  obtain ⟨hk, rfl⟩ | ⟨hk, hi, rfl⟩ | ⟨hk, hi, hh, hw, hb, rfl⟩ := execConv_next h
  · rw [hkH, hkW] at hk
    exact ⟨_, _, execConv_of_no_kernel hk, rfl, rfl, fun hok => by simp at hok⟩
  · rw [hkH, hkW] at hk
    rw [himgW, himgH] at hi
    exact ⟨_, _, execConv_of_empty_image hk hi, rfl, rfl, fun hok => by simp at hok⟩
  · rw [hkH, hkW] at hk
    rw [himgW, himgH] at hi hb
    rw [hkH] at hh
    rw [hkW] at hw
    refine ⟨_, _, execConv_success hk hi hh hw hb, rfl, rfl, fun _ => ⟨himgW, himgH, rfl, fun a ha => ?_⟩⟩
    rw [State.respond_readObuf, State.respond_readObuf, State.publish_convImage_readObuf,
      State.publish_convImage_readObuf, if_pos ha, if_pos (by rwa [← himgW, ← himgH]), hsame.outSample_eq, himgW]

/-! ### `OVALID` (10_state.md R26) -/

/-- `CONV` sets `OVALID` where its one response is a success, and leaves it where that is an error. -/
theorem execConv_ovalid {s t : State} (h : execConv s = .next t) :
    ∃ r, t.responses = s.responses ++ [r] ∧
      (rspError r = 0 → t.ovalid = true) ∧ (rspError r ≠ 0 → t.ovalid = s.ovalid) := by
  obtain ⟨-, rfl⟩ | ⟨-, -, rfl⟩ | ⟨-, -, -, -, -, rfl⟩ := execConv_next h
  · exact ⟨_, rfl, fun hok => by simp at hok, fun _ => rfl⟩
  · exact ⟨_, rfl, fun hok => by simp at hok, fun _ => rfl⟩
  · exact ⟨_, rfl, fun _ => rfl, fun herr => by simp at herr⟩

theorem step_of_reset {s : State} {p : Option Word} {rest : List HostInput} (h : s.pending = .reset p :: rest) :
    step s = .next (({ s with pending := rest } : State).hardReset p) := by
  simp only [step, State.takeInput, h]

/-- Settles O43: `OVALID` has two writers among the commands, of which `SRST` clears it and `CONV` is
`execConv_ovalid`; a word that is no command only answers. -/
theorem ovalidChangesOnlyAsStated : Obligations.OvalidChangesOnlyAsStated := by
  refine ⟨fun c s t h => ?_, fun s p rest hp => ⟨_, step_of_reset hp, rfl⟩⟩
  obtain ⟨i, hdecode, e⟩ | ⟨⟨reason, hdecode⟩, e⟩ := execWord_cases c s <;> rw [e] at h <;> rw [hdecode]
  · refine ⟨fun hconv hsrst => ?_, fun hsrst => ?_, fun hconv => ?_⟩
    · obtain ⟨-, -, -, houtput, -⟩ := eachPieceOfStateHasItsWriters i s t h
      obtain ⟨-, -, hovalid⟩ := houtput (fun hi => hconv (hi ▸ rfl)) (fun hi => hsrst (hi ▸ rfl))
      exact hovalid
    · cases hsrst
      cases h
      rfl
    · cases hconv
      exact execConv_ovalid h
  · cases h
    simp

/-! ### The values after reset (10_state.md R36) -/

/-- Settles O13: the fields of `State.reset`, and `CONV` fails there for want of a kernel. -/
theorem resetStateValues : Obligations.ResetStateValues := by
  have hweight : ∀ u v, State.reset.weight u v = 0 := State.clearRegisters_weight State.reset
  have hconv : exec .conv State.reset = .next { State.reset with responses := [0x10000000#32] } :=
    execConv_of_no_kernel (.inl rfl)
  exact ⟨hweight, rfl, rfl, rfl, rfl, rfl, rfl, rfl, rfl, fun _ => rfl, fun _ => rfl, rfl, rfl, hconv⟩

end Sys2Proof.Machine

/-! SUPPORT and settled statements of 20_memory.md: the byte order of files of command words, what a command leaves when
it is sent twice, and until when a result can be read. -/

namespace Sys2Proof

/-! ### Files of command words (20_memory.md R52) -/

theorem bytesToWord_extractLsb (c : Word) :
    bytesToWord (c.extractLsb 7 0) (c.extractLsb 15 8) (c.extractLsb 23 16) (c.extractLsb 31 24) = c := by
  have hlt := c.isLt
  apply BitVec.eq_of_toNat_eq
  show (((c.extractLsb 31 24 ++ c.extractLsb 23 16) ++ c.extractLsb 15 8) ++ c.extractLsb 7 0).toNat = c.toNat
  simp only [toNat_concat, toNat_extractLsb]
  omega

theorem wordsToFile_cons (c : Word) (cs : List Word) : wordsToFile (c :: cs) = wordToBytes c ++ wordsToFile cs := rfl

theorem fileToWords_wordsToFile (cs : List Word) : fileToWords (wordsToFile cs) = some cs := by
  induction cs with
  | nil => rfl
  | cons c cs ih =>
    show (fileToWords (wordsToFile cs)).map (bytesToWord _ _ _ _ :: ·) = some (c :: cs)
    rw [ih, Option.map_some, bytesToWord_extractLsb]

theorem wordsToFile_length (cs : List Word) : (wordsToFile cs).length = 4 * cs.length := by
  induction cs with
  | nil => rfl
  | cons c cs ih =>
    have hbytes : (wordToBytes c).length = 4 := rfl
    rw [wordsToFile_cons, List.length_append, hbytes, ih, List.length_cons]
    omega

/-- Byte `4 * k + j` of a file is byte `j` of word `k`. -/
theorem wordsToFile_getElem? {cs : List Word} {k j : Nat} {c : Word} (hk : cs[k]? = some c) (hj : j < 4) :
    (wordsToFile cs)[4 * k + j]? = (wordToBytes c)[j]? := by
  induction cs generalizing k with
  | nil => simp at hk
  | cons d ds ih =>
    have hbytes : (wordToBytes d).length = 4 := rfl
    rw [wordsToFile_cons]
    cases k with
    | zero =>
      obtain rfl : d = c := by simpa using hk
      rw [Nat.mul_zero, Nat.zero_add, List.getElem?_append_left (by omega)]
    | succ k =>
      rw [List.getElem?_append_right (by omega), hbytes, show 4 * (k + 1) + j - 4 = 4 * k + j by omega]
      exact ih hk

/-- Settles O8, from the position of each word's bytes in the file and the word of its own four bytes. -/
theorem commandFilesAreLittleEndian : Obligations.CommandFilesAreLittleEndian := by
  intro cs
  refine ⟨fileToWords_wordsToFile cs, wordsToFile_length cs, fun k c hk => ⟨?_, ?_, ?_, ?_⟩⟩
  · exact wordsToFile_getElem? hk (j := 0) (by decide)
  · exact wordsToFile_getElem? hk (j := 1) (by decide)
  · exact wordsToFile_getElem? hk (j := 2) (by decide)
  · exact wordsToFile_getElem? hk (j := 3) (by decide)

end Sys2Proof

namespace Sys2Proof.Machine


end Sys2Proof.Machine

namespace Sys2Proof.Machine

/-! ### The responses already delivered have no part in a command -/

/-- The outcome of a command from `s`, the responses delivered before it being `rs` in place of those of `s`. -/
def outcomeAnsweringAfter (s : State) (rs : List Word) :
    Host.Outcome State Fault Refusal → Host.Outcome State Fault Refusal
  | .next t => .next { t with responses := rs ++ newResponses s t }
  | .fault r => .fault r
  | .refused r => .refused r

theorem outcomeAnsweringAfter_deliver {s u : State} (h : u.responses = s.responses) (rs : List Word) (r : Word) :
    outcomeAnsweringAfter s rs (.next (u.deliver r)) =
      .next (({ u with responses := rs } : State).deliver r) := by
  have hnew : newResponses s (u.deliver r) = [r] := newResponses_eq (by rw [State.deliver_responses, h])
  rw [outcomeAnsweringAfter, hnew]
  rfl

/-- From other responses a command gives the same answer and the same effect. -/
theorem exec_answeringAfter (i : Instr) (s : State) (rs : List Word) :
    exec i { s with responses := rs } = outcomeAnsweringAfter s rs (exec i s) := by
  have hdeliver (u : State) (h : u.responses = s.responses) (r : Word) := (outcomeAnsweringAfter_deliver h rs r).symm
  have hraise (e : ErrorCode) := hdeliver s rfl (responseWord e 0)
  cases i with
  | nop => exact hdeliver s rfl _
  | setimg w h =>
    simp only [exec, execSetimg]
    split
    · exact hraise _
    · exact hdeliver (s.setImage w h) rfl _
  | setkrn kh kw =>
    simp only [exec, execSetkrn]
    split_ifs
    · exact hraise _
    · exact hraise _
    · exact hdeliver (s.setKernel kh kw) rfl _
  | ldw u v n =>
    simp only [exec, execLdw]
    split
    · exact hdeliver (s.setWeight _ _ n) rfl _
    · exact hraise _
  | ldpx a p => exact hdeliver (s.writeIbuf a.toNat p) rfl _
  | rdpx a => simp only [exec, execRdpx]; split_ifs <;> exact hdeliver s rfl _
  | conv =>
    simp only [exec, execConv]
    split_ifs
    · exact hraise _
    · exact hraise _
    · rfl
    · rfl
    · exact hdeliver (s.publish s.convImage) rfl _
  | rdreg r =>
    simp only [exec, execRdreg]
    split
    next reg _ => cases reg <;> exact hdeliver s rfl _
    next => exact hraise _
  | rdw u v => simp only [exec, execRdw]; split <;> exact hdeliver s rfl _
  | srst => exact hdeliver s.clearRegisters rfl _

/-! ### Reads and writes sent twice (20_memory.md R55) -/

/-- A command that did nothing but answer gives the same answer again. -/
theorem exec_again {i : Instr} {s : State} {r : Word} (h : exec i s = .next (s.deliver r)) :
    exec i (s.deliver r) = .next ((s.deliver r).deliver r) :=
  calc exec i (s.deliver r) = outcomeAnsweringAfter s (s.responses ++ [r]) (exec i s) := exec_answeringAfter i s _
    _ = .next ((s.deliver r).deliver r) := by rw [h, outcomeAnsweringAfter_deliver rfl]; rfl

theorem exec_read_delivers {i : Instr} {s t : State}
    (hi : (∃ a, i = .rdpx a) ∨ (∃ u v, i = .rdw u v) ∨ (∃ r, i = .rdreg r)) (h : exec i s = .next t) :
    ∃ r, t = s.deliver r := by
  obtain ⟨e, rfl, -⟩ | effect := exec_next h
  · exact ⟨_, rfl⟩
  obtain ⟨a, rfl⟩ | ⟨u, v, rfl⟩ | ⟨n, rfl⟩ := hi
  · obtain ⟨-, -, rfl⟩ := effect; exact ⟨_, rfl⟩
  · obtain ⟨row, col, -, -, rfl⟩ := effect; exact ⟨_, rfl⟩
  · obtain ⟨reg, -, rfl⟩ := effect; exact ⟨_, rfl⟩

/-! A write that succeeded succeeds again: its checks read the operands, or the registers `CONV` leaves as they are. -/

theorem execSetimg_success {w h : Dim} (hb : w.toNat * h.toNat ≤ Config.bufPixels) (s : State) :
    execSetimg w h s = .next ((s.setImage w h).respond 0) := if_neg (by omega)

theorem execSetkrn_success {kh kw : Bits3} (hoddH : kh.toNat % 2 = 1) (hoddW : kw.toNat % 2 = 1)
    (hleH : kh.toNat ≤ 5) (hleW : kw.toNat ≤ 5) (s : State) :
    execSetkrn kh kw s = .next ((s.setKernel kh kw).respond 0) := by
  obtain ⟨heven, -⟩ | ⟨-, -, hlarge, -⟩ | ⟨-, -, -, -, e⟩ := execSetkrn_cases kh kw s
  · omega
  · omega
  · exact e

theorem execLdw_success {u v : Bits3} {row col : Fin 5} (hu : u.toNat = row.val) (hv : v.toNat = col.val) (n : Weight)
    (s : State) : execLdw u v n s = .next ((s.setWeight row col n).respond 0) := by
  rw [execLdw, kernelIndex_some.2 hu, kernelIndex_some.2 hv]

theorem State.writeIbuf_writeIbuf (s : State) (a : Nat) (p : Pixel) :
    (s.writeIbuf a p).writeIbuf a p = s.writeIbuf a p := by
  simp only [State.writeIbuf, Memory.write_write]

theorem State.setWeight_setWeight (s : State) (u v : Fin 5) (n : Weight) :
    (s.setWeight u v n).setWeight u v n = s.setWeight u v n := by
  simp [State.setWeight]

theorem State.SameConvInputs.convImage_eq {s s' : State} (h : s.SameConvInputs s') : s.convImage = s'.convImage := by
  simp only [State.convImage, h.imgW, h.imgH, h.outSample_eq]

/-- `CONV` reads nothing it writes. -/
theorem State.publish_sameConvInputs (s : State) (ps : List Pixel) : (s.publish ps).SameConvInputs s :=
  ⟨rfl, rfl, rfl, rfl, fun _ _ _ _ => rfl, fun _ _ => rfl⟩

theorem State.publish_publish_convImage (s : State) :
    (s.publish s.convImage).publish (s.publish s.convImage).convImage = s.publish s.convImage := by
  rw [(s.publish_sameConvInputs s.convImage).convImage_eq]
  simp only [State.publish, Memory.writeBlock_writeBlock]

theorem exec_write_again {i : Instr} {s t : State}
    (hi : (∃ a p, i = .ldpx a p) ∨ (∃ u v n, i = .ldw u v n) ∨ (∃ w h, i = .setimg w h) ∨
      (∃ kh kw, i = .setkrn kh kw) ∨ i = .conv)
    (h : exec i s = .next t) : ∃ t', exec i t = .next t' ∧ State.SameButResponses t t' := by
  obtain ⟨e, rfl, -⟩ | effect := exec_next h
  · exact ⟨_, exec_again h, rfl⟩
  obtain ⟨a, p, rfl⟩ | ⟨u, v, n, rfl⟩ | ⟨w, h', rfl⟩ | ⟨kh, kw, rfl⟩ | rfl := hi
  · cases h
    exact ⟨_, rfl, congrArg (State.respond · 0) (s.writeIbuf_writeIbuf a.toNat p)⟩
  · obtain ⟨row, col, hu, hv, rfl⟩ := effect
    exact ⟨_, execLdw_success hu hv n _, congrArg (State.respond · 0) (s.setWeight_setWeight row col n)⟩
  · obtain ⟨hb, rfl⟩ := effect
    exact ⟨_, execSetimg_success hb _, rfl⟩
  · obtain ⟨hoddH, hoddW, hleH, hleW, rfl⟩ := effect
    exact ⟨_, execSetkrn_success hoddH hoddW hleH hleW _, rfl⟩
  · obtain ⟨hk, hi, hh, hw, hb, rfl⟩ := effect
    exact ⟨_, execConv_success hk hi hh hw hb, congrArg (State.respond · 0) s.publish_publish_convImage⟩

/-- Settles O44: a read only delivers its answer, so `exec_again` repeats it, as it does a write that failed; a write
that succeeded succeeds again, with an update that repeats without effect. -/
theorem readsAndWritesAreIdempotent : Obligations.ReadsAndWritesAreIdempotent := by
  refine ⟨fun i s t hi h => ?_, fun i s t hi h => exec_write_again hi h⟩
  obtain ⟨r, rfl⟩ := exec_read_delivers hi h
  exact ⟨rfl, r, _, rfl, exec_again h, rfl⟩

/-! ### What `RDPX` answers (41_buffer_commands.md R101) -/

/-- The response word of `RDPX a`. -/
def State.rdpxAnswer (s : State) (a : PixelAddr) : Word :=
  if s.ovalid = false then responseWord .noResult 0
  else if s.outW.toNat * s.outH.toNat ≤ a.toNat then responseWord .outOfRange 0
  else responseWord .ok ((s.readObuf a.toNat).setWidth 28)

theorem exec_rdpx (a : PixelAddr) (s : State) : exec (.rdpx a) s = .next (s.deliver (s.rdpxAnswer a)) := by
  simp only [exec, execRdpx, State.rdpxAnswer]
  split_ifs <;> rfl

/-- A command that is neither `CONV` nor `SRST` writes none of what `RDPX` reads (10_state.md R20). -/
theorem exec_keeps_rdpxAnswer {i : Instr} {s t : State} (h : exec i s = .next t) (hconv : i ≠ .conv)
    (hsrst : i ≠ .srst) (a : PixelAddr) : t.rdpxAnswer a = s.rdpxAnswer a := by
  obtain ⟨-, -, -, houtput, -, hobuf, -, hresets⟩ := eachPieceOfStateHasItsWriters i s t h
  obtain ⟨houtW, houtH, hovalid⟩ := houtput hconv hsrst
  simp only [State.rdpxAnswer, State.readObuf, houtW, houtH, hovalid, hobuf hconv, hresets]

/-- A `CONV` that is answered with an error leaves the result there was. -/
theorem execConv_error_keeps_rdpxAnswer {s t : State} {r : Word} (h : execConv s = .next t)
    (hr : t.responses = s.responses ++ [r]) (herror : rspError r ≠ 0) (a : PixelAddr) :
    t.rdpxAnswer a = s.rdpxAnswer a := by
  obtain ⟨-, rfl⟩ | ⟨-, -, rfl⟩ | ⟨-, -, -, -, -, rfl⟩ := execConv_next h
  · rfl
  · rfl
  · cases List.append_cancel_left hr
    simp at herror

theorem execWord_keeps_rdpxAnswer {c : Word} {s t : State} {r : Word} (h : execWord c s = .next t)
    (hr : t.responses = s.responses ++ [r]) (hsrst : decode c ≠ .ok .srst)
    (hconv : decode c = .ok .conv → rspError r ≠ 0) (a : PixelAddr) : t.rdpxAnswer a = s.rdpxAnswer a := by
  obtain ⟨i, hdecode, e⟩ | ⟨-, e⟩ := execWord_cases c s <;> rw [e] at h
  · rw [hdecode] at hsrst hconv
    by_cases hi : i = .conv
    · subst hi
      exact execConv_error_keeps_rdpxAnswer h hr (hconv rfl) a
    · exact exec_keeps_rdpxAnswer h hi (fun hi => hsrst (hi ▸ rfl)) a
  · cases h
    rfl

/-- Settles O45: `RDPX` gives the same answer before the word and after it. -/
theorem resultStaysReadable : Obligations.ResultStaysReadable := by
  intro c s t r h hr hsrst hconv a
  refine ⟨s.rdpxAnswer a, exec_rdpx a s, ?_⟩
  rw [← execWord_keeps_rdpxAnswer h hr hsrst hconv a]
  exact exec_rdpx a t

end Sys2Proof.Machine

/-! SUPPORT and settled statements of 30_encoding.md: decoding and encoding are inverse to each other, the opcode map is
the decoder, operands out of range, and the host's assembler (quantisation of weights, `IMAGE`). -/

namespace Sys2Proof

/-! ### The rows of the opcode map (30_encoding.md R83) -/

/-- Every command's word is hit by its own row. -/
theorem encode_hits (i : Instr) : (opcodeRow i).hits (encode i) := by
  cases i with
  | nop => exact Laws.EncodingRow.nop
  | setimg w h => exact Laws.EncodingRow.setimg w h
  | setkrn kh kw => exact Laws.EncodingRow.setkrn kh kw
  | ldw u v n => exact Laws.EncodingRow.ldw u v n
  | ldpx a p => exact Laws.EncodingRow.ldpx a p
  | rdpx a => exact Laws.EncodingRow.rdpx a
  | conv => exact Laws.EncodingRow.conv
  | rdreg r => exact Laws.EncodingRow.rdreg r
  | rdw u v => exact Laws.EncodingRow.rdw u v
  | srst => exact Laws.EncodingRow.srst

theorem opcodeRow_mem_opcodeTable (i : Instr) : opcodeRow i ∈ opcodeTable := by
  cases i <;> simp [opcodeTable, opcodeRow]

theorem exists_opcodeRow_eq {row : OpcodeRow} (h : row ∈ opcodeTable) : ∃ i, opcodeRow i = row := by
  simp only [opcodeTable, List.mem_cons, List.not_mem_nil, or_false] at h
  rcases h with rfl | rfl | rfl | rfl | rfl | rfl | rfl | rfl | rfl | rfl <;> exact ⟨_, rfl⟩

/-- A row fixes every field that its mask covers. -/
theorem OpcodeRow.hits.extractLsb_eq {row : OpcodeRow} {c : Word} (h : row.hits c) (hi lo : Nat)
    (hmask : row.mask.extractLsb hi lo = BitVec.allOnes (hi - lo + 1)) :
    c.extractLsb hi lo = row.pattern.extractLsb hi lo := by
  have hc : c &&& row.mask = row.pattern := h
  rw [← hc, BitVec.extractLsb_and, hmask, BitVec.and_allOnes]

/-- The command of `i`'s mnemonic whose operands are the fields of the word (30_encoding.md R71, R73). -/
def Instr.withOperandsOf : Instr → Word → Instr
  | .nop, _ => .nop
  | .setimg _ _, c => .setimg (c.extractLsb 27 14) (c.extractLsb 13 0)
  | .setkrn _ _, c => .setkrn (c.extractLsb 5 3) (c.extractLsb 2 0)
  | .ldw _ _ _, c => .ldw (c.extractLsb 27 25) (c.extractLsb 24 22) (c.extractLsb 21 0)
  | .ldpx _ _, c => .ldpx (c.extractLsb 19 0) (c.extractLsb 27 20)
  | .rdpx _, c => .rdpx (c.extractLsb 19 0)
  | .conv, _ => .conv
  | .rdreg _, c => .rdreg (c.extractLsb 3 0)
  | .rdw _ _, c => .rdw (c.extractLsb 27 25) (c.extractLsb 24 22)
  | .srst, _ => .srst

@[simp] theorem opcodeRow_withOperandsOf (i : Instr) (c : Word) : opcodeRow (i.withOperandsOf c) = opcodeRow i := by
  cases i <;> rfl

theorem opcodeRow_mask_opcode (i : Instr) : (opcodeRow i).mask.extractLsb 31 28 = BitVec.allOnes 4 := by
  have hmask : ∀ row ∈ opcodeTable, row.mask.extractLsb 31 28 = BitVec.allOnes 4 := by decide
  exact hmask _ (opcodeRow_mem_opcodeTable i)

/-- A word that the row of `i` hits has `i`'s opcode and zeros in the reserved bits of `i`'s format, so that it decodes
to the command of `i`'s mnemonic with the operands the word holds. -/
theorem decode_of_hits {i : Instr} {c : Word} (h : (opcodeRow i).hits c) : decode c = .ok (i.withOperandsOf c) := by
  have hop : opcode c = (opcodeRow i).pattern.extractLsb 31 28 := h.extractLsb_eq 31 28 (opcodeRow_mask_opcode i)
  cases i <;> simp only [opcodeRow] at h hop <;> rw [decode, hop]
  case nop | conv | srst => rw [h.extractLsb_eq 27 0 rfl]; rfl
  case setkrn => rw [h.extractLsb_eq 27 6 rfl]; rfl
  case rdpx => rw [h.extractLsb_eq 27 20 rfl]; rfl
  case rdreg => rw [h.extractLsb_eq 27 4 rfl]; rfl
  case rdw => rw [h.extractLsb_eq 21 0 rfl]; rfl
  case setimg | ldw | ldpx => rfl

/-! ### Decoding the word of a command (30_encoding.md R71, R73) -/

/-- A field of a word, given by its number. -/
theorem extractLsb_eq_of_toNat {c : Word} {hi lo : Nat} {x : BitVec (hi - lo + 1)}
    (h : c.toNat / 2 ^ lo % 2 ^ (hi - lo + 1) = x.toNat) : c.extractLsb hi lo = x :=
  BitVec.eq_of_toNat_eq ((toNat_extractLsb c hi lo).trans h)

theorem withOperandsOf_encode (i : Instr) : i.withOperandsOf (encode i) = i := by
  cases i with
  | nop | conv | srst => rfl
  | setimg w h =>
    have hw : (encode (.setimg w h)).extractLsb 27 14 = w :=
      extractLsb_eq_of_toNat (by rw [encode_setimg_toNat]; omega)
    have hh : (encode (.setimg w h)).extractLsb 13 0 = h :=
      extractLsb_eq_of_toNat (by rw [encode_setimg_toNat]; omega)
    rw [Instr.withOperandsOf, hw, hh]
  | setkrn kh kw =>
    have hkh : (encode (.setkrn kh kw)).extractLsb 5 3 = kh :=
      extractLsb_eq_of_toNat (by rw [encode_setkrn_toNat]; omega)
    have hkw : (encode (.setkrn kh kw)).extractLsb 2 0 = kw :=
      extractLsb_eq_of_toNat (by rw [encode_setkrn_toNat]; omega)
    rw [Instr.withOperandsOf, hkh, hkw]
  | ldw u v n =>
    have hu : (encode (.ldw u v n)).extractLsb 27 25 = u :=
      extractLsb_eq_of_toNat (by rw [encode_ldw_toNat]; omega)
    have hv : (encode (.ldw u v n)).extractLsb 24 22 = v :=
      extractLsb_eq_of_toNat (by rw [encode_ldw_toNat]; omega)
    have hn : (encode (.ldw u v n)).extractLsb 21 0 = n :=
      extractLsb_eq_of_toNat (by rw [encode_ldw_toNat]; omega)
    rw [Instr.withOperandsOf, hu, hv, hn]
  | ldpx a p =>
    have ha : (encode (.ldpx a p)).extractLsb 19 0 = a :=
      extractLsb_eq_of_toNat (by rw [encode_ldpx_toNat]; omega)
    have hp : (encode (.ldpx a p)).extractLsb 27 20 = p :=
      extractLsb_eq_of_toNat (by rw [encode_ldpx_toNat]; omega)
    rw [Instr.withOperandsOf, ha, hp]
  | rdpx a =>
    have ha : (encode (.rdpx a)).extractLsb 19 0 = a :=
      extractLsb_eq_of_toNat (by rw [encode_rdpx_toNat]; omega)
    rw [Instr.withOperandsOf, ha]
  | rdreg r =>
    have hr : (encode (.rdreg r)).extractLsb 3 0 = r :=
      extractLsb_eq_of_toNat (by rw [encode_rdreg_toNat]; omega)
    rw [Instr.withOperandsOf, hr]
  | rdw u v =>
    have hu : (encode (.rdw u v)).extractLsb 27 25 = u :=
      extractLsb_eq_of_toNat (by rw [encode_rdw_toNat]; omega)
    have hv : (encode (.rdw u v)).extractLsb 24 22 = v :=
      extractLsb_eq_of_toNat (by rw [encode_rdw_toNat]; omega)
    rw [Instr.withOperandsOf, hu, hv]

/-- Settles O1: a command's word is hit by its row, so it decodes to the mnemonic of that row with the word's own
fields, which are the command's operands. -/
theorem decodeOfEncodeIsIdentity : Obligations.DecodeOfEncodeIsIdentity := by
  intro i
  rw [decode_of_hits (encode_hits i), withOperandsOf_encode]

/-- Settles O6: each word of the table is the word of the command beside it. -/
theorem wordsOfTheSyntaxTableDecode : Obligations.WordsOfTheSyntaxTableDecode := by
  have decodes {c : Word} (i : Instr) (h : encode i = c) : decode c = .ok i := h ▸ decodeOfEncodeIsIdentity i
  exact ⟨decodes _ rfl, decodes _ rfl, decodes _ rfl, decodes _ rfl, decodes _ rfl, decodes _ rfl, decodes _ rfl,
    decodes _ rfl, decodes _ rfl, decodes _ rfl⟩

/-! ### Encoding what a word decodes to -/

/-- A command is read past a reserved field exactly when the field's number is 0. -/
theorem ifReservedZero_extractLsb_ok {c : Word} {hi lo : Nat} {op : BitVec 4} {i j : Instr} :
    ifReservedZero (c.extractLsb hi lo) op i = .ok j ↔ c.toNat / 2 ^ lo % 2 ^ (hi - lo + 1) = 0 ∧ i = j := by
  rw [ifReservedZero_ok, ← BitVec.toNat_inj, toNat_extractLsb, BitVec.toNat_ofNat, Nat.zero_mod]

theorem encode_nop_toNat : (encode .nop).toNat = 0 := rfl

theorem encode_conv_toNat : (encode .conv).toNat = 6 * 2 ^ 28 := rfl

theorem encode_srst_toNat : (encode .srst).toNat = 9 * 2 ^ 28 := rfl

/-- Settles O2: in each format the opcode, the operands and the reserved bits, which are 0, make up the whole word. -/
theorem encodeOfDecodeIsIdentity : Obligations.EncodeOfDecodeIsIdentity := by
  intro c i h
  apply BitVec.eq_of_toNat_eq
  have hop := toNat_opcode c
  unfold decode at h
  split at h
  case h_1 =>
    obtain ⟨hz, rfl⟩ := ifReservedZero_extractLsb_ok.1 h
    rw [encode_nop_toNat]
    omega
  case h_2 =>
    cases h
    rw [encode_setimg_toNat, toNat_extractLsb, toNat_extractLsb]
    omega
  case h_3 =>
    obtain ⟨hz, rfl⟩ := ifReservedZero_extractLsb_ok.1 h
    rw [encode_setkrn_toNat, toNat_extractLsb, toNat_extractLsb]
    omega
  case h_4 =>
    cases h
    rw [encode_ldw_toNat, toNat_extractLsb, toNat_extractLsb, toNat_extractLsb]
    omega
  case h_5 =>
    cases h
    rw [encode_ldpx_toNat, toNat_extractLsb, toNat_extractLsb]
    omega
  case h_6 =>
    obtain ⟨hz, rfl⟩ := ifReservedZero_extractLsb_ok.1 h
    rw [encode_rdpx_toNat, toNat_extractLsb]
    omega
  case h_7 =>
    obtain ⟨hz, rfl⟩ := ifReservedZero_extractLsb_ok.1 h
    rw [encode_conv_toNat]
    omega
  case h_8 =>
    obtain ⟨hz, rfl⟩ := ifReservedZero_extractLsb_ok.1 h
    rw [encode_rdreg_toNat, toNat_extractLsb]
    omega
  case h_9 =>
    obtain ⟨hz, rfl⟩ := ifReservedZero_extractLsb_ok.1 h
    rw [encode_rdw_toNat, toNat_extractLsb, toNat_extractLsb]
    omega
  case h_10 =>
    obtain ⟨hz, rfl⟩ := ifReservedZero_extractLsb_ok.1 h
    rw [encode_srst_toNat]
    omega
  case h_11 => cases h

/-! ### The decoder is the opcode map (30_encoding.md R74, R83) -/

theorem hits_of_decode {c : Word} {i : Instr} (h : decode c = .ok i) : (opcodeRow i).hits c := by
  have hits := encode_hits i
  rwa [encodeOfDecodeIsIdentity c i h] at hits

/-- A row of the map hits a word exactly when the word decodes to a command of that row. -/
theorem hits_iff_decode {c : Word} {row : OpcodeRow} (hrow : row ∈ opcodeTable) :
    row.hits c ↔ ∃ i, decode c = .ok i ∧ opcodeRow i = row := by
  constructor
  · intro h
    obtain ⟨i, rfl⟩ := exists_opcodeRow_eq hrow
    exact ⟨i.withOperandsOf c, decode_of_hits h, opcodeRow_withOperandsOf i c⟩
  · rintro ⟨i, h, rfl⟩
    exact hits_of_decode h

/-- A command's word has the opcode of its row's pattern. -/
theorem opcode_of_decode {c : Word} {i : Instr} (h : decode c = .ok i) :
    c.extractLsb 31 28 = (opcodeRow i).pattern.extractLsb 31 28 :=
  (hits_of_decode h).extractLsb_eq 31 28 (opcodeRow_mask_opcode i)

end Sys2Proof

namespace Sys2Proof.Machine

/-- A word that is no command answers `IllegalCommand` and changes nothing else (30_encoding.md R74). -/
theorem execWord_of_not_decoded {c : Word} (h : ∀ i, decode c ≠ .ok i) (s : State) :
    execWord c s = .next { s with responses := s.responses ++ [0x40000000#32] } := by
  obtain ⟨i, hdecode, -⟩ | ⟨-, e⟩ := execWord_cases c s
  · exact absurd hdecode (h i)
  · exact e

theorem execWord_of_decode {c : Word} {i : Instr} (h : decode c = .ok i) (s : State) : execWord c s = exec i s := by
  rw [execWord, h]

theorem execWord_encode (i : Instr) (s : State) : execWord (encode i) s = exec i s :=
  execWord_of_decode (decodeOfEncodeIsIdentity i) s

/-- Settles O3: a word that decodes is hit by the row of its command, and by no other since it decodes to one command
only; a word that does not decode is hit by no row. -/
theorem decoderFollowsOpcodeTable : Obligations.DecoderFollowsOpcodeTable := by
  intro c s
  by_cases hdecodes : ∃ i, decode c = .ok i
  · obtain ⟨i, hi⟩ := hdecodes
    refine .inl ⟨opcodeRow i, opcodeRow_mem_opcodeTable i, hits_of_decode hi, fun row' hrow' hhits => ?_, i, hi, rfl,
      execWord_of_decode hi s⟩
    obtain ⟨j, hj, rfl⟩ := (hits_iff_decode hrow').1 hhits
    cases hi.symm.trans hj
    rfl
  · refine .inr ⟨fun row hrow hhits => ?_, execWord_of_not_decoded (not_exists.1 hdecodes) s⟩
    obtain ⟨i, hi, -⟩ := (hits_iff_decode hrow).1 hhits
    exact hdecodes ⟨i, hi⟩

/-- Settles O4: no row of the map has such an opcode. -/
theorem reservedOpcodesAreIllegal : Obligations.ReservedOpcodesAreIllegal := by
  intro c s hop
  have hlow : ∀ row ∈ opcodeTable, (row.pattern.extractLsb 31 28).toNat < 0xA := by decide
  have hnone (i : Instr) : decode c ≠ .ok i := by
    intro hi
    rw [opcode_of_decode hi] at hop
    exact absurd hop (Nat.not_le.2 (hlow _ (opcodeRow_mem_opcodeTable i)))
  exact ⟨hnone, execWord_of_not_decoded hnone s⟩

/-- The row of an opcode with reserved bits wants a 0 in each of them: its mask covers them, its pattern has none. -/
theorem opcodeTable_covers_reservedBits {p : BitVec 4 × Word} (hp : p ∈ Spec.reservedBits) :
    ∀ row ∈ opcodeTable, row.pattern.extractLsb 31 28 = p.1 → row.mask &&& p.2 = p.2 ∧ row.pattern &&& p.2 = 0 := by
  simp only [Spec.reservedBits, List.mem_cons, List.not_mem_nil, or_false] at hp
  rcases hp with rfl | rfl | rfl | rfl | rfl | rfl | rfl <;> decide

/-- A word that decodes has a 0 in each reserved bit of its opcode's format (30_encoding.md R76). -/
theorem reservedBits_zero_of_decode {c : Word} {i : Instr} (h : decode c = .ok i) {op : BitVec 4} {mask : Word}
    (hmem : (op, mask) ∈ Spec.reservedBits) (hop : c.extractLsb 31 28 = op) : c &&& mask = 0 := by
  have hc : c &&& (opcodeRow i).mask = (opcodeRow i).pattern := hits_of_decode h
  obtain ⟨hmask, hpattern⟩ := opcodeTable_covers_reservedBits hmem _ (opcodeRow_mem_opcodeTable i)
    ((opcode_of_decode h).symm.trans hop)
  calc c &&& mask = (c &&& (opcodeRow i).mask) &&& mask := by rw [BitVec.and_assoc, hmask]
    _ = 0 := by rw [hc, hpattern]

/-- Settles O5: a word that decodes has its reserved bits 0; formats D, W and P have none. -/
theorem reservedBitsAreIllegal : Obligations.ReservedBitsAreIllegal := by
  refine ⟨fun c s op mask hmem hop hbits => ?_, fun c hop => ?_⟩
  · have hnone (i : Instr) : decode c ≠ .ok i := fun hi => hbits (reservedBits_zero_of_decode hi hmem hop)
    exact ⟨hnone, execWord_of_not_decoded hnone s⟩
  · obtain hop | hop | hop : opcode c = 0x1#4 ∨ opcode c = 0x3#4 ∨ opcode c = 0x4#4 := hop <;> rw [decode, hop] <;>
      exact ⟨_, rfl⟩

/-! ### Operands out of range (30_encoding.md R77) -/

theorem kernelDimOk_iff {k : Bits3} : kernelDimOk k = true ↔ k.toNat % 2 = 1 ∧ k.toNat ≤ 5 := by
  rw [kernelDimOk, Bool.and_eq_true, beq_iff_eq, decide_eq_true_iff]
  rfl

theorem kernelIndexOk_iff {u : Bits3} : kernelIndexOk u = true ↔ u.toNat < 5 := by
  rw [kernelIndexOk, decide_eq_true_iff]
  rfl

theorem imageFits_iff {w h : Dim} : imageFits w h = true ↔ w.toNat * h.toNat ≤ Config.bufPixels := by
  rw [imageFits, decide_eq_true_iff]

/-- A command that is not well formed raises its error: `OutOfRange`, or `InvalidKernel` for a kernel dimension that is
even or zero. -/
theorem exec_of_not_wellFormed {i : Instr} (h : i.wellFormed = false) (s : State) :
    exec i s = .next (s.raise .outOfRange) ∨
      ((∃ kh kw, i = .setkrn kh kw) ∧ exec i s = .next (s.raise .invalidKernel)) := by
  rw [← Bool.not_eq_true] at h
  cases i with
  | nop | ldpx _ _ | rdpx _ | conv | srst => exact absurd rfl h
  | setimg w h' =>
    rw [Instr.wellFormed, imageFits_iff] at h
    obtain ⟨-, e⟩ | ⟨hb, -⟩ := execSetimg_cases w h' s
    · exact .inl e
    · exact absurd hb h
  | setkrn kh kw =>
    rw [Instr.wellFormed, Bool.and_eq_true, kernelDimOk_iff, kernelDimOk_iff] at h
    obtain ⟨-, e⟩ | ⟨-, -, -, e⟩ | ⟨hoddH, hoddW, hleH, hleW, -⟩ := execSetkrn_cases kh kw s
    · exact .inr ⟨⟨kh, kw, rfl⟩, e⟩
    · exact .inl e
    · exact absurd ⟨⟨hoddH, hleH⟩, hoddW, hleW⟩ h
  | ldw u v n =>
    rw [Instr.wellFormed, Bool.and_eq_true, kernelIndexOk_iff, kernelIndexOk_iff] at h
    obtain ⟨-, e⟩ | ⟨row, col, hu, hv, -⟩ := execLdw_cases u v n s
    · exact .inl e
    · omega
  | rdreg r =>
    rw [Instr.wellFormed, decide_eq_true_iff, Nat.not_lt] at h
    rw [exec, execRdreg, ofNumber_none.2 h]
    exact .inl rfl
  | rdw u v =>
    rw [Instr.wellFormed, Bool.and_eq_true, kernelIndexOk_iff, kernelIndexOk_iff] at h
    obtain ⟨-, e⟩ | ⟨row, col, hu, hv, -⟩ := execRdw_cases u v s
    · exact .inl e
    · omega

/-- Settles O7: every command decodes from its word, and `exec_of_not_wellFormed` gives the error. -/
theorem outOfRangeOperandsDecodeAndFail : Obligations.OutOfRangeOperandsDecodeAndFail :=
  fun i s h => ⟨decodeOfEncodeIsIdentity i, exec_of_not_wellFormed h s⟩

end Sys2Proof.Machine

namespace Sys2Proof.Asm

open Sys2Proof.Machine

/-! ### Quantisation (30_encoding.md R81) -/

theorem quantise_neg (num : Int) (den : Nat) : quantise (-num) den = -quantise num den := by
  simp [quantise]

/-- A non-negative fraction is quantised to `floor(x * 2^16 + 1/2)`. -/
theorem quantise_natCast (n : Nat) {den : Nat} (hden : 0 < den) :
    quantise n den = ((2 * n * 65536 + den) / (2 * den) : Nat) := by
  obtain rfl | hn := Nat.eq_zero_or_pos n
  · rw [Nat.mul_zero, Nat.zero_mul, Nat.zero_add, Nat.div_eq_of_lt (by omega)]
    simp [quantise]
  · rw [quantise, Int.sign_natCast_of_ne_zero hn.ne', Int.natAbs_natCast, one_mul]
    rfl

theorem quantise_natCast_nearest (n : Nat) {den : Nat} (hden : 0 < den) :
    2 * |quantise n den * den - n * 65536| ≤ den := by
  rw [quantise_natCast n hden]
  have hlow := Nat.div_mul_le_self (2 * n * 65536 + den) (2 * den)
  have hhigh := Nat.lt_mul_div_succ (2 * n * 65536 + den) (show 0 < 2 * den by omega)
  generalize (2 * n * 65536 + den) / (2 * den) = q at hlow hhigh ⊢
  zify at hlow hhigh
  have habs : |2 * ((q : Int) * den - n * 65536)| ≤ den := abs_le.2 ⟨by linarith, by linarith⟩
  rwa [abs_mul, abs_two] at habs

theorem quantise_nearest (num : Int) {den : Nat} (hden : 0 < den) :
    2 * |quantise num den * den - num * 65536| ≤ den := by
  obtain ⟨n, rfl | rfl⟩ := num.eq_nat_or_neg
  · exact quantise_natCast_nearest n hden
  · rw [quantise_neg, show -quantise n den * den - -(n : Int) * 65536 = -(quantise n den * den - n * 65536) by ring,
      abs_neg]
    exact quantise_natCast_nearest n hden

/-- Settles O47: the two parts are `quantise_nearest` and `quantise_neg`. -/
theorem quantisationIsNearestAndOdd : Obligations.QuantisationIsNearestAndOdd :=
  fun num den hden => ⟨quantise_nearest num hden, quantise_neg num den⟩

/-! ### `IMAGE` (30_encoding.md R82) -/

theorem natField_eq_some {width n : Nat} {x : BitVec width} : natField width n = some x ↔ x.toNat = n := by
  unfold natField
  split
  case isTrue h => rw [Option.some_inj, ← BitVec.toNat_inj, BitVec.toNat_ofNat, Nat.mod_eq_of_lt h, eq_comm]
  case isFalse h =>
    have := x.isLt
    simp only [reduceCtorEq, false_iff]
    omega

theorem ldpxAt_eq_some {a p : Nat} {i : Instr} (h : ldpxAt a p = some i) :
    ∃ (x : PixelAddr) (y : Pixel), x.toNat = a ∧ y.toNat = p ∧ i = .ldpx x y := by
  simp only [ldpxAt, Option.bind_eq_bind, Option.bind_eq_some_iff, natField_eq_some, Option.pure_def,
    Option.some_inj] at h
  obtain ⟨x, hx, y, hy, rfl⟩ := h
  exact ⟨x, y, hx, hy, rfl⟩

/-- The `LDPX` of each pixel of a list, the first one at cell `lo`. -/
def pixelCommands (lo : Nat) (ps : List Nat) : Option (List Instr) := (ps.zipIdx lo).mapM fun p => ldpxAt p.2 p.1

theorem pixelCommands_nil_eq_some {lo : Nat} {is : List Instr} : pixelCommands lo [] = some is ↔ is = [] := by
  simp [pixelCommands, eq_comm]

theorem pixelCommands_cons_eq_some {lo p : Nat} {ps : List Nat} {is : List Instr}
    (h : pixelCommands lo (p :: ps) = some is) :
    ∃ (x : PixelAddr) (y : Pixel) (loads : List Instr), x.toNat = lo ∧ y.toNat = p ∧
      pixelCommands (lo + 1) ps = some loads ∧ is = .ldpx x y :: loads := by
  simp only [pixelCommands, List.zipIdx_cons, List.mapM_cons, Option.bind_eq_bind, Option.bind_eq_some_iff,
    Option.pure_def, Option.some_inj] at h
  obtain ⟨i, hi, loads, hloads, rfl⟩ := h
  obtain ⟨x, y, hx, hy, rfl⟩ := ldpxAt_eq_some hi
  exact ⟨x, y, loads, hx, hy, hloads, rfl⟩

/-- `IMAGE` is its `SETIMG` followed by the `LDPX` of each pixel. -/
theorem imageCommands_eq_some {w h : Nat} {ps : List Nat} {is : List Instr} (hsome : imageCommands w h ps = some is) :
    ∃ (x y : Dim) (loads : List Instr), x.toNat = w ∧ y.toNat = h ∧ pixelCommands 0 ps = some loads ∧
      is = .setimg x y :: loads := by
  unfold imageCommands at hsome
  split at hsome
  · cases hsome
  · simp only [Option.bind_eq_bind, Option.bind_eq_some_iff, natField_eq_some, Option.pure_def,
      Option.some_inj] at hsome
    obtain ⟨x, hx, y, hy, loads, hloads, rfl⟩ := hsome
    exact ⟨x, y, loads, hx, hy, hloads, rfl⟩

/-- `t` is `s` after the pixels have been loaded to the cells from `lo` on, each load answered with 0. -/
structure PixelsLoaded (s t : State) (lo : Nat) (ps : List Nat) : Prop where
  pixels : ∀ (a : Nat) (ha : a < ps.length), (t.readIbuf (lo + a)).toNat = ps[a]
  otherCells : ∀ a, a < lo ∨ lo + ps.length ≤ a → t.readIbuf a = s.readIbuf a
  rest : t = { s with ibuf := t.ibuf, responses := s.responses ++ List.replicate ps.length 0#32 }

theorem PixelsLoaded.nil (s : State) (lo : Nat) : PixelsLoaded s s lo [] where
  pixels a ha := absurd ha (Nat.not_lt_zero a)
  otherCells _ _ := rfl
  rest := by simp

/-- One load, then the loads of the other pixels to the cells after it. -/
theorem PixelsLoaded.cons {s t : State} {lo : Nat} {p : Pixel} {ps : List Nat}
    (h : PixelsLoaded ((s.writeIbuf lo p).respond 0) t (lo + 1) ps) : PixelsLoaded s t lo (p.toNat :: ps) where
  pixels a ha := by
    cases a with
    | zero =>
      rw [Nat.add_zero, h.otherCells lo (.inl (Nat.lt_succ_self lo)), State.respond_readIbuf, State.writeIbuf_readIbuf,
        if_pos rfl, List.getElem_cons_zero]
    | succ a =>
      rw [List.getElem_cons_succ, ← h.pixels a (Nat.lt_of_succ_lt_succ ha), Nat.add_right_comm lo 1 a, Nat.add_assoc]
  otherCells a ha := by
    rw [List.length_cons] at ha
    rw [h.otherCells a (by omega), State.respond_readIbuf, State.writeIbuf_readIbuf, if_neg (by omega)]
  rest := by
    have hrest := h.rest
    rw [State.respond_responses, List.append_assoc] at hrest
    exact hrest

/-- The loads of a list of pixels succeed on any state, by induction on the list. -/
theorem runWords_pixelCommands {lo : Nat} {ps : List Nat} {is : List Instr} (h : pixelCommands lo ps = some is)
    (s : State) : ∃ t, runWords (is.map encode) s = some t ∧ PixelsLoaded s t lo ps := by
  induction ps generalizing lo is s with
  | nil =>
    obtain rfl := pixelCommands_nil_eq_some.1 h
    exact ⟨s, rfl, .nil s lo⟩
  | cons p ps ih =>
    obtain ⟨x, y, loads, rfl, rfl, hloads, rfl⟩ := pixelCommands_cons_eq_some h
    obtain ⟨t, hrun, hloaded⟩ := ih hloads ((s.writeIbuf x.toNat y).respond 0)
    have hword : execWord (encode (.ldpx x y)) s = .next ((s.writeIbuf x.toNat y).respond 0) := execWord_encode _ s
    exact ⟨t, (runWords_cons hword _).trans hrun, hloaded.cons⟩

/-- Settles O48: `SETIMG` succeeds as the image fits, and the loads after it keep what it wrote. -/
theorem imageProgramLoadsTheImage : Obligations.ImageProgramLoadsTheImage := by
  intro w h ps is s hassemble hfits
  obtain ⟨x, y, loads, rfl, rfl, hloads, rfl⟩ := imageCommands_eq_some hassemble
  obtain ⟨t, hrun, hpixels, hother, hrest⟩ := runWords_pixelCommands hloads ((s.setImage x y).respond 0)
  have hword : execWord (encode (.setimg x y)) s = .next ((s.setImage x y).respond 0) :=
    (execWord_encode _ s).trans (execSetimg_success hfits s)
  have hresponses : t.responses = s.responses ++ 0#32 :: List.replicate ps.length 0#32 := by
    rw [hrest, State.respond_responses, List.append_assoc]
    rfl
  refine ⟨t, (runWords_cons hword _).trans hrun, by rw [hrest]; rfl, by rw [hrest]; rfl, fun a ha => ?_,
    fun a ha => ?_, by rw [hrest]; rfl, by rw [hrest]; rfl, fun r hr => ?_⟩
  · rw [← hpixels a ha, Nat.zero_add]
  · rw [hother a (by omega)]
    rfl
  · rw [newResponses_eq hresponses, List.mem_cons] at hr
    exact hr.elim id List.eq_of_mem_replicate

end Sys2Proof.Asm

/-! SUPPORT and settled statements of 40_configuration_commands.md: what `SETIMG`, `SETKRN`, `LDW` and `RDW` do, and
which operands they refuse. -/

namespace Sys2Proof.Machine

/-! ### The operands a configuration command refuses -/

theorem execSetimg_outOfRange {w h : Dim} (hb : Config.bufPixels < w.toNat * h.toNat) (s : State) :
    execSetimg w h s = .next (s.raise .outOfRange) := if_pos hb

theorem execSetkrn_invalidKernel {kh kw : Bits3} (heven : kh.toNat % 2 = 0 ∨ kw.toNat % 2 = 0) (s : State) :
    execSetkrn kh kw s = .next (s.raise .invalidKernel) := if_pos heven

theorem execSetkrn_outOfRange {kh kw : Bits3} (hoddH : kh.toNat % 2 = 1) (hoddW : kw.toNat % 2 = 1)
    (hlarge : 5 < kh.toNat ∨ 5 < kw.toNat) (s : State) : execSetkrn kh kw s = .next (s.raise .outOfRange) := by
  obtain ⟨heven, -⟩ | ⟨-, -, -, e⟩ | ⟨-, -, hleH, hleW, -⟩ := execSetkrn_cases kh kw s
  · omega
  · exact e
  · omega

theorem execLdw_outOfRange {u v : Bits3} (hlarge : 4 < u.toNat ∨ 4 < v.toNat) (n : Weight) (s : State) :
    execLdw u v n s = .next (s.raise .outOfRange) := by
  obtain ⟨-, e⟩ | ⟨row, col, hu, hv, -⟩ := execLdw_cases u v n s
  · exact e
  · omega

theorem execRdw_outOfRange {u v : Bits3} (hlarge : 4 < u.toNat ∨ 4 < v.toNat) (s : State) :
    execRdw u v s = .next (s.raise .outOfRange) := by
  obtain ⟨-, e⟩ | ⟨row, col, hu, hv, -⟩ := execRdw_cases u v s
  · exact e
  · omega

/-! ### The weight `RDW` answers (40_configuration_commands.md R93) -/

theorem execRdw_success {u v : Bits3} {row col : Fin 5} (hu : u.toNat = row.val) (hv : v.toNat = col.val) (s : State) :
    execRdw u v s = .next (s.respond ((s.weight row col).setWidth 28)) := by
  rw [execRdw, kernelIndex_some.2 hu, kernelIndex_some.2 hv]

/-- A weight's 22 bits pass through the 28 data bits of the response unchanged, and bits 27:22 and the code are 0. -/
theorem responseWord_weight (n : Weight) : responseWord .ok (n.setWidth 28) = n.setWidth 32 := by
  rw [responseWord_ok, BitVec.setWidth_setWidth (by decide)]

/-! ### The statements -/

/-- Settles O16: the capacity check is the only one, and `setImage` writes `IMG_W` and `IMG_H` alone. -/
theorem setimgEffect : Obligations.SetimgEffect := fun w h s =>
  ⟨decodeOfEncodeIsIdentity (.setimg w h), fun hfits => execSetimg_success hfits s,
    fun hlarge => execSetimg_outOfRange hlarge s⟩

/-- Settles O17: one rule for each of the three clauses, and `setKernel` writes `K_H` and `K_W` alone. -/
theorem setkrnEffect : Obligations.SetkrnEffect := fun kh kw s =>
  ⟨decodeOfEncodeIsIdentity (.setkrn kh kw), fun heven => execSetkrn_invalidKernel heven s,
    fun hoddH hoddW hlarge => execSetkrn_outOfRange hoddH hoddW hlarge s,
    fun hoddH hoddW hleH hleW => execSetkrn_success hoddH hoddW hleH hleW s⟩

/-- Settles O18: `setWeight_weight` gives the weights after the write; the write touches nothing but the store. -/
theorem ldwEffect : Obligations.LdwEffect := by
  intro u v n s
  refine ⟨decodeOfEncodeIsIdentity (.ldw u v n), fun row col hu hv => ?_, fun hlarge => execLdw_outOfRange hlarge n s⟩
  exact ⟨(s.setWeight row col n).respond 0, execLdw_success hu hv n s, s.setWeight_weight row col n, rfl⟩

/-- Settles O19: the answer is `execRdw_success`, and `responseWord_weight` gives its word. -/
theorem rdwEffect : Obligations.RdwEffect := by
  intro u v s
  refine ⟨decodeOfEncodeIsIdentity (.rdw u v), fun row col hu hv => ?_, fun hlarge => execRdw_outOfRange hlarge s⟩
  rw [← responseWord_weight]
  exact execRdw_success hu hv s

end Sys2Proof.Machine

/-! SUPPORT and settled statements of 41_buffer_commands.md: what `LDPX` writes and what `RDPX` answers. -/

namespace Sys2Proof.Machine

/-! ### The three answers of `RDPX` (41_buffer_commands.md R101) -/

theorem State.rdpxAnswer_noResult {s : State} (hnone : s.ovalid = false) (a : PixelAddr) :
    s.rdpxAnswer a = responseWord .noResult 0 := if_pos hnone

theorem State.rdpxAnswer_outOfRange {s : State} {a : PixelAddr} (hvalid : s.ovalid = true)
    (hbeyond : s.outW.toNat * s.outH.toNat ≤ a.toNat) : s.rdpxAnswer a = responseWord .outOfRange 0 := by
  rw [State.rdpxAnswer, if_neg (by simp [hvalid]), if_pos hbeyond]

/-- A pixel's 8 bits pass through the 28 data bits of the response unchanged, and bits 27:8 and the code are 0. -/
theorem responseWord_pixel (p : Pixel) : responseWord .ok (p.setWidth 28) = p.setWidth 32 := by
  rw [responseWord_ok, BitVec.setWidth_setWidth (by decide)]

theorem State.rdpxAnswer_pixel {s : State} {a : PixelAddr} (hvalid : s.ovalid = true)
    (hinside : a.toNat < s.outW.toNat * s.outH.toNat) : s.rdpxAnswer a = (s.readObuf a.toNat).setWidth 32 := by
  rw [State.rdpxAnswer, if_neg (by simp [hvalid]), if_neg (Nat.not_le.2 hinside), responseWord_pixel]

/-! ### The statements -/

/-- Settles O20: `writeIbuf_readIbuf` gives the cells of `IBUF` after the write; the write touches nothing but `IBUF`. -/
theorem ldpxEffect : Obligations.LdpxEffect := by
  intro a p s
  refine ⟨decodeOfEncodeIsIdentity (.ldpx a p), (s.writeIbuf a.toNat p).respond 0, rfl, fun b => ?_, fun b => ?_, rfl⟩
  · rw [State.respond_readIbuf, State.writeIbuf_readIbuf]
  · rw [State.respond_readObuf, State.writeIbuf_readObuf]

/-- Settles O21: `RDPX` only delivers its answer (`exec_rdpx`), and each clause is one of the three answers. -/
theorem rdpxEffect : Obligations.RdpxEffect := by
  intro a s
  refine ⟨decodeOfEncodeIsIdentity (.rdpx a), fun hnone => ?noResult, fun hvalid hbeyond => ?outOfRange,
    fun hvalid hinside => ?pixel⟩ <;> rw [exec_rdpx]
  case noResult => rw [State.rdpxAnswer_noResult hnone]; rfl
  case outOfRange => rw [State.rdpxAnswer_outOfRange hvalid hbeyond]; rfl
  case pixel => rw [State.rdpxAnswer_pixel hvalid hinside]; rfl

end Sys2Proof.Machine

/-! SUPPORT and settled statements of 42_convolve.md: the clamp unit, the raw sum and the written image as the loops of
the complete pseudocode (R119), what `CONV` leaves unchanged, and three kernels whose output is known. -/

namespace Sys2Proof.Machine

/-! ### The clamp unit (42_convolve.md R117, R126) -/

/-- Settles O28: the three cases of the clamp unit. -/
theorem clampThenTruncate : Obligations.ClampThenTruncate := by
  refine fun S => ⟨clampUnit_neg, clampUnit_high, fun hlow hhigh => ?_⟩
  rw [clampUnit_mid hlow hhigh]
  omega

/-- Settles O29: below 0 and from `255 * 65536` on both orders saturate; in between the floor is already in range. -/
theorem floorThenClampIsTheSame : Obligations.FloorThenClampIsTheSame := by
  intro S
  obtain ⟨hneg, hhigh, hmid⟩ := clampThenTruncate S
  unfold clip
  rcases lt_or_ge S 0 with h | hlow
  · rw [hneg h, if_pos (by omega)]
    rfl
  rcases le_or_gt 16711680 S with h | h
  · rw [hhigh h]
    change (255 : Int) = _
    split_ifs <;> omega
  · rw [hmid hlow h, if_neg (by omega), if_neg (by omega)]

/-- A raw sum whose floor is a pixel value gives that pixel. -/
theorem clampUnit_toNat_of_div_eq {S x : Int} (hdiv : S / 65536 = x) (hlow : 0 ≤ x) (hhigh : x ≤ 255) :
    ((clampUnit S).toNat : Int) = x := by
  rw [floorThenClampIsTheSame, hdiv, clip, if_neg (by omega), if_neg (by omega)]

theorem clampTruncate_eq_clampUnit (S : Int) : Spec.clampTruncate S = clampUnit S := by
  unfold Spec.clampTruncate
  split_ifs with hneg hhigh
  · rw [clampUnit_neg hneg]
  · rw [clampUnit_high (by omega)]
  · apply BitVec.eq_of_toNat_eq
    rw [clampUnit_mid (by omega) (by omega), BitVec.toNat_ofNat]
    omega

/-! ### The two inner loops of the pseudocode give the raw sum (42_convolve.md R115, R119) -/

theorem neighbour_eq_sample (s : State) (y x : Int) : Spec.neighbour s y x = s.sample y x := by
  unfold Spec.neighbour State.sample
  split_ifs with hin
  · obtain ⟨hy, -, hx, -⟩ := hin
    lift y to Nat using hy
    lift x to Nat using hx
    norm_cast
  · rfl

theorem weightAt_eq_weight (s : State) (u v : Fin 5) : Spec.weightAt s u v = (s.weight u v).toInt :=
  dif_pos ⟨u.isLt, v.isLt⟩

/-- What one turn of the innermost loop adds to `S`. -/
def State.loopProduct (s : State) (i j u v : Nat) : Int :=
  Spec.weightAt s u v *
    Spec.neighbour s ((i : Int) + u - (s.kH.toNat / 2 : Nat)) ((j : Int) + v - (s.kW.toNat / 2 : Nat))

theorem State.lane_eq_loopProduct (s : State) (i j : Nat) (u v : Fin 5) :
    s.lane i j u v = if u.val < s.kH.toNat then if v.val < s.kW.toNat then s.loopProduct i j u v else 0 else 0 := by
  rw [← ite_and, State.loopProduct, weightAt_eq_weight, neighbour_eq_sample]
  rfl

theorem foldl_range_add (f : Nat → Int) (n : Nat) (S : Int) :
    (List.range n).foldl (fun S k => S + f k) S = S + ∑ k ∈ Finset.range n, f k := by
  induction n with
  | zero => simp
  | succ n ih => rw [List.range_succ, List.foldl_append, ih, Finset.sum_range_succ, ← add_assoc]; rfl

theorem sumLoops_eq_sum (s : State) (i j : Nat) :
    Spec.sumLoops s i j = ∑ u ∈ Finset.range s.kH.toNat, ∑ v ∈ Finset.range s.kW.toNat, s.loopProduct i j u v := by
  have hrow (u : Nat) (S : Int) := foldl_range_add (s.loopProduct i j u) s.kW.toNat S
  have hrows := foldl_range_add (fun u => ∑ v ∈ Finset.range s.kW.toNat, s.loopProduct i j u v) s.kH.toNat 0
  simp only [← hrow, zero_add] at hrows
  exact hrows

/-- A sum over the indices of an array whose entries from `m` on are 0 is the sum over the first `m`. -/
theorem sum_fin_ite_lt {m n : Nat} (hmn : m ≤ n) (f : Nat → Int) :
    (∑ k : Fin n, if k.val < m then f k else 0) = ∑ k ∈ Finset.range m, f k := by
  rw [Fin.sum_univ_eq_sum_range (fun k => if k < m then f k else 0), ← Finset.sum_filter]
  congr 1
  ext k
  rw [Finset.mem_filter, Finset.mem_range, Finset.mem_range]
  omega

/-- The inactive lanes add 0, so that the array's sum is that of the two loops over the kernel's block. -/
theorem rawSum_eq_sumLoops {s : State} (hh : s.kH.toNat ≤ 5) (hw : s.kW.toNat ≤ 5) (i j : Nat) :
    s.rawSum i j = Spec.sumLoops s i j := by
  have hrow (u : Nat) := sum_fin_ite_lt hw (s.loopProduct i j u)
  calc s.rawSum i j
      = ∑ u : Fin 5, if u.val < s.kH.toNat then ∑ v ∈ Finset.range s.kW.toNat, s.loopProduct i j u v else 0 := by
        rw [State.rawSum_eq_sum]
        refine Finset.sum_congr rfl fun u _ => ?_
        simp only [State.lane_eq_loopProduct]
        split_ifs
        · exact hrow u
        · exact Finset.sum_const_zero
    _ = ∑ u ∈ Finset.range s.kH.toNat, ∑ v ∈ Finset.range s.kW.toNat, s.loopProduct i j u v :=
        sum_fin_ite_lt hh fun u => ∑ v ∈ Finset.range s.kW.toNat, s.loopProduct i j u v
    _ = Spec.sumLoops s i j := (sumLoops_eq_sum s i j).symm

/-! ### The two outer loops of the pseudocode write the output image (42_convolve.md R118, R119) -/

namespace Memory

/-- A loop that writes `f 0, f 1, …` to the `n` cells from `base` on. -/
def writeRow (m : Memory) (base n : Nat) (f : Nat → Pixel) : Memory :=
  (List.range n).foldl (fun m j => write m (base + j) (f j)) m

theorem lookup_writeRow (m : Memory) (base n : Nat) (f : Nat → Pixel) (a : Nat) :
    lookup (writeRow m base n f) a = if base ≤ a ∧ a < base + n then some (f (a - base)) else lookup m a := by
  induction n with
  | zero => rw [if_neg (by omega)]; rfl
  | succ n ih =>
    have hlast : writeRow m base (n + 1) f = write (writeRow m base n f) (base + n) (f n) := by
      simp only [writeRow, List.range_succ, List.foldl_append, List.foldl_cons, List.foldl_nil]
    rw [hlast, lookup_write, ih]
    rcases eq_or_ne a (base + n) with rfl | hne
    · rw [if_pos rfl, if_pos (by omega), Nat.add_sub_cancel_left]
    · rw [if_neg hne]
      congr 1
      rw [eq_iff_iff]
      omega

/-- A loop that writes `h` rows of `w` pixels, one after the other from address 0. -/
def writeRows (m : Memory) (w h : Nat) (f : Nat → Nat → Pixel) : Memory :=
  (List.range h).foldl (fun m i => writeRow m (i * w) w (f i)) m

theorem lookup_writeRows (m : Memory) (w h : Nat) (f : Nat → Nat → Pixel) (a : Nat) :
    lookup (writeRows m w h f) a = if a < h * w then some (f (a / w) (a % w)) else lookup m a := by
  induction h with
  | zero => rw [if_neg (by omega)]; rfl
  | succ h ih =>
    have hlast : writeRows m w (h + 1) f = writeRow (writeRows m w h f) (h * w) w (f h) := by
      simp only [writeRows, List.range_succ, List.foldl_append, List.foldl_cons, List.foldl_nil]
    rw [hlast, lookup_writeRow, ih, Nat.succ_mul]
    by_cases hlastRow : h * w ≤ a ∧ a < h * w + w
    · obtain ⟨hfrom, hto⟩ := hlastRow
      have hrow : a / w = h := Nat.div_eq_of_lt_le hfrom (by rwa [Nat.succ_mul])
      have hcol : a % w = a - h * w := by rw [Nat.mod_eq_sub_div_mul, hrow]
      rw [if_pos ⟨hfrom, hto⟩, if_pos hto, hrow, hcol]
    · rw [if_neg hlastRow]
      congr 1
      rw [eq_iff_iff]
      omega

end Memory

theorem obufLoops_eq_writeRows (s : State) :
    Spec.obufLoops s = Memory.writeRows s.obuf s.imgW.toNat s.imgH.toNat
      fun i j => Spec.clampTruncate (Spec.sumLoops s i j) := rfl

/-- `OBUF` reads alike after the pseudocode's loops and after the write-back of the image. -/
theorem readObuf_obufLoops {s : State} (hh : s.kH.toNat ≤ 5) (hw : s.kW.toNat ≤ 5) (a : Nat) :
    ({ s with obuf := Spec.obufLoops s } : State).readObuf a = (s.publish s.convImage).readObuf a := by
  rw [State.publish_convImage_readObuf, State.readObuf, obufLoops_eq_writeRows, Memory.lookup_writeRows, Nat.mul_comm]
  split_ifs
  · rw [clampTruncate_eq_clampUnit, ← rawSum_eq_sumLoops hh hw]
    rfl
  · rfl

/-! ### `CONV` on a constructed kernel and an image that fits -/

theorem convReady_kernelDims_le {s : State} (hready : Spec.ConvReady s) : s.kH.toNat ≤ 5 ∧ s.kW.toNat ≤ 5 := by
  obtain ⟨hh, hw, -⟩ := hready
  exact ⟨(legalKernelDim_iff.1 hh).2, (legalKernelDim_iff.1 hw).2⟩

theorem exec_conv_of_ready {s : State} (hready : Spec.ConvReady s) :
    exec .conv s = .next ((s.publish s.convImage).respond 0) := by
  obtain ⟨hleH, hleW⟩ := convReady_kernelDims_le hready
  obtain ⟨hh, hw, himgW, himgH, hfits⟩ := hready
  have hoddH := (legalKernelDim_iff.1 hh).1
  have hoddW := (legalKernelDim_iff.1 hw).1
  have hkernel : ¬ (s.kH = 0 ∨ s.kW = 0) := by bv_omega
  have himage : ¬ (s.imgW = 0 ∨ s.imgH = 0) := by bv_omega
  exact execConv_success hkernel himage hleH hleW hfits

/-! ### The statements about every kernel -/

/-- Settles O24: the two checks come before the first write. -/
theorem convFailureChangesNothing : Obligations.ConvFailureChangesNothing := fun _ =>
  ⟨execConv_of_no_kernel, fun hkH hkW hempty => execConv_of_empty_image (not_or.2 ⟨hkH, hkW⟩) hempty⟩

/-- Settles O25: the errors are those of O24, and `readObuf_obufLoops` compares the written image. -/
theorem convRunsThePseudocode : Obligations.ConvRunsThePseudocode := by
  intro s
  obtain ⟨hnoKernel, hemptyImage⟩ := convFailureChangesNothing s
  refine ⟨hnoKernel, hemptyImage, fun hready => ?_⟩
  obtain ⟨hh, hw⟩ := convReady_kernelDims_le hready
  refine ⟨_, exec_conv_of_ready hready, fun a => ?_, rfl⟩
  rw [State.respond_readObuf, readObuf_obufLoops hh hw]

/-- Settles O26: `publish` writes `OBUF`, `OUT_W`, `OUT_H` and `OVALID` alone, and of `OBUF` only the image's cells. -/
theorem convFrame : Obligations.ConvFrame := by
  intro s hready
  refine ⟨_, exec_conv_of_ready hready, fun a => rfl, fun a hbeyond => ?_, fun u v => rfl, rfl, rfl, rfl, rfl, rfl, rfl,
    rfl, rfl, rfl, rfl⟩
  rw [State.respond_readObuf, State.publish_convImage_readObuf, if_neg (by omega)]

/-! ### Kernels whose output is known (42_convolve.md R124) -/

/-- A lane delivers 0 where its position is inactive or its weight is 0. -/
theorem State.lane_eq_zero {s : State} {u v : Fin 5}
    (hweight : u.val < s.kH.toNat → v.val < s.kW.toNat → s.weight u v = 0) (i j : Nat) : s.lane i j u v = 0 := by
  by_cases hactive : u.val < s.kH.toNat ∧ v.val < s.kW.toNat
  · obtain ⟨hu, hv⟩ := hactive
    rw [State.lane_active hu hv, hweight hu hv, show (0 : Weight).toInt = 0 from rfl, zero_mul]
  · exact State.lane_inactive hactive

theorem State.rawSum_eq_lane {s : State} {i j : Nat} {u v : Fin 5}
    (hothers : ∀ u' v' : Fin 5, (u', v') ≠ (u, v) → s.lane i j u' v' = 0) : s.rawSum i j = s.lane i j u v := by
  rw [State.rawSum_eq_sum, ← Fintype.sum_prod_type']
  exact Fintype.sum_eq_single (u, v) fun lane hne => hothers lane.1 lane.2 hne

/-- Settles O31: the raw sum is the one lane's product, `65536` times the sample `CONV` meets at `(u, v)`. -/
theorem unitWeightShiftsTheImage : Obligations.UnitWeightShiftsTheImage := by
  intro s u v hready hu hv hunit hothers
  refine ⟨_, exec_conv_of_ready hready, fun i j hi hj => ?_⟩
  rw [State.respond_readObuf, State.publish_convImage_at s hi hj, State.outSample, neighbour_eq_sample]
  have hsum : s.rawSum i j = 65536 * s.sample ((i : Int) + u.val - pad s.kH) ((j : Int) + v.val - pad s.kW) := by
    rw [State.rawSum_eq_lane fun u' v' hne => State.lane_eq_zero (fun hu' hv' => hothers u' v' hu' hv' hne) i j,
      State.lane_active hu hv, hunit]
    rfl
  obtain ⟨hlow, hhigh⟩ := s.sample_bounds ((i : Int) + u.val - pad s.kH) ((j : Int) + v.val - pad s.kW)
  rw [hsum]
  exact clampUnit_toNat_of_div_eq (Int.mul_ediv_cancel_left _ (by decide)) hlow hhigh

/-- Settles O32: every lane delivers 0, and the clamp unit maps 0 to 0. -/
theorem zeroKernelGivesZero : Obligations.ZeroKernelGivesZero := by
  intro s hready hzero
  refine ⟨_, exec_conv_of_ready hready, fun a ha => ?_⟩
  have hsum (i j : Nat) : s.rawSum i j = 0 := by
    rw [State.rawSum_eq_sum]
    exact Finset.sum_eq_zero fun u _ => Finset.sum_eq_zero fun v _ => State.lane_eq_zero (hzero u v) i j
  rw [State.respond_readObuf, State.publish_convImage_readObuf, if_pos ha, State.outSample, hsum]
  rfl

/-- With a 3x3 kernel of equal weights whose nine samples are equal too, the raw sum is nine times their product. -/
theorem State.rawSum_of_uniform {s : State} {weight sample : Int} {i j : Nat} (hkH : s.kH = 3) (hkW : s.kW = 3)
    (hweight : ∀ u v : Fin 5, u.val < 3 → v.val < 3 → (s.weight u v).toInt = weight)
    (hsample : ∀ u v : Fin 5, u.val < 3 → v.val < 3 →
      s.sample ((i : Int) + u.val - 1) ((j : Int) + v.val - 1) = sample) :
    s.rawSum i j = 9 * (weight * sample) := by
  have hlane (u v : Fin 5) : s.lane i j u v = if u.val < 3 ∧ v.val < 3 then weight * sample else 0 := by
    have hpad : pad 3 = 1 := rfl
    have hthree : (3 : Bits3).toNat = 3 := rfl
    rw [State.lane, hkH, hkW, hpad, hthree, Nat.cast_one]
    refine if_ctx_congr Iff.rfl (fun hactive => ?_) fun _ => rfl
    rw [hweight u v hactive.1 hactive.2, hsample u v hactive.1 hactive.2]
  simp only [State.rawSum_eq_sum, hlane, Fin.sum_univ_five]
  norm_num
  ring

/-- At a sample on no border the whole 3x3 window is inside the image. -/
theorem State.sample_interior {s : State} {value : Pixel}
    (himage : ∀ a, a < s.imgW.toNat * s.imgH.toNat → s.readIbuf a = value) {i j : Nat} (hi : 1 ≤ i)
    (hiH : i + 1 < s.imgH.toNat) (hj : 1 ≤ j) (hjW : j + 1 < s.imgW.toNat) {u v : Nat} (hu : u < 3) (hv : v < 3) :
    s.sample ((i : Int) + u - 1) ((j : Int) + v - 1) = value.toNat := by
  have hy : i + u - 1 < s.imgH.toNat := by omega
  have hx : j + v - 1 < s.imgW.toNat := by omega
  have hcell : (i + u - 1) * s.imgW.toNat + (j + v - 1) < s.imgW.toNat * s.imgH.toNat := by nlinarith
  rw [show (i : Int) + u - 1 = (i + u - 1 : Nat) by omega, show (j : Int) + v - 1 = (j + v - 1 : Nat) by omega,
    State.sample_inside hy hx, himage _ hcell]

/-- Settles O33: the raw sum is `9 * 7282 = 65538` times the value, and the excess of `2` a unit over `65536` is dropped
with the fraction. -/
theorem boxBlurKeepsUniformInterior : Obligations.BoxBlurKeepsUniformInterior := by
  intro s value hready hkH hkW hbox himage
  refine ⟨_, exec_conv_of_ready hready, fun i j hi hiH hj hjW => ?_⟩
  have hsum : s.rawSum i j = 9 * (7282 * value.toNat) :=
    State.rawSum_of_uniform hkH hkW (fun u v hu hv => by rw [hbox u v hu hv]; rfl)
      fun u v hu hv => State.sample_interior himage hi hiH hj hjW hu hv
  rw [State.respond_readObuf, State.publish_convImage_at s (by omega) (by omega), State.outSample]
  apply BitVec.eq_of_toNat_eq
  have hvalue := value.isLt
  exact_mod_cast clampUnit_toNat_of_div_eq (S := s.rawSum i j) (x := value.toNat) (by omega) (by omega) (by omega)

end Sys2Proof.Machine

/-! SUPPORT and settled statements of 43_system_commands.md: what `NOP`, `RDREG` and `SRST` do. -/

namespace Sys2Proof.Machine

/-! ### The words `RDREG` answers (43_system_commands.md R131) -/

theorem execRdreg_outOfRange {r : RegNum} (hreserved : 8 ≤ r.toNat) (s : State) :
    execRdreg r s = .next (s.raise .outOfRange) := by
  rw [execRdreg, ofNumber_none.2 hreserved]

theorem execRdreg_success {r : RegNum} {reg : CtrlReg} (hreg : CtrlReg.ofNumber r = some reg) (s : State) :
    execRdreg r s = .next (s.respond (s.readReg reg)) := by
  rw [execRdreg, hreg]

/-- A value of at most 28 bits passes through the data field of the response unchanged, the bits above it being 0. -/
theorem responseWord_setWidth {n : Nat} (hn : n ≤ 28) (x : BitVec n) :
    responseWord .ok (x.setWidth 28) = x.setWidth 32 := by
  rw [responseWord_ok, BitVec.setWidth_setWidth (by omega)]

theorem responseWord_statusWord (s : State) :
    responseWord .ok s.statusWord = if s.ovalid then 0x00000001#32 else 0#32 := by
  rw [State.statusWord, apply_ite (responseWord .ok)]
  rfl

/-! ### The statements -/

/-- Settles O15: the word is that of `NOP`, and `NOP` only responds. -/
theorem nopEffect : Obligations.NopEffect :=
  ⟨decodeOfEncodeIsIdentity .nop, fun _ => rfl⟩

/-- Settles O22: `RDREG` responds with `readReg` of the register its number names, which is `execRdreg_success`; the
numbers that name none are `execRdreg_outOfRange`. -/
theorem rdregEffect : Obligations.RdregEffect := by
  intro s
  have answers {r : RegNum} {reg : CtrlReg} {answer : Word} (hreg : CtrlReg.ofNumber r = some reg)
      (hanswer : responseWord .ok (s.readReg reg) = answer) :
      exec (.rdreg r) s = .next { s with responses := s.responses ++ [answer] } := by
    rw [← hanswer]
    exact execRdreg_success hreg s
  have dimension (d : Dim) := responseWord_setWidth (by decide) d
  have kernelDimension (d : Bits3) := responseWord_setWidth (by decide) d
  exact ⟨fun r => decodeOfEncodeIsIdentity (.rdreg r),
    answers (reg := .imgW) rfl (dimension _), answers (reg := .imgH) rfl (dimension _),
    answers (reg := .kH) rfl (kernelDimension _), answers (reg := .kW) rfl (kernelDimension _),
    answers (reg := .outW) rfl (dimension _), answers (reg := .outH) rfl (dimension _),
    answers (reg := .status) rfl (responseWord_statusWord s), answers (reg := .id) rfl (responseWord_ok _),
    fun _ hreserved => execRdreg_outOfRange hreserved s⟩

/-- Settles O23: the next state is `clearRegisters` with a response, its registers those of `State.reset`; there
`OVALID` is 0, so `RDPX` has no result to read, and the kernel dimensions are 0, so `CONV` has no kernel. -/
theorem srstEffect : Obligations.SrstEffect := by
  refine ⟨decodeOfEncodeIsIdentity .srst, fun s => ?_⟩
  refine ⟨s.clearRegisters.respond 0, rfl, s.clearRegisters_weight, rfl, rfl, fun a => ?rdpx, ?conv⟩
  case rdpx =>
    rw [exec_rdpx, State.rdpxAnswer_noResult rfl]
    rfl
  case conv => exact execConv_of_no_kernel (.inl rfl)

end Sys2Proof.Machine

/-! SUPPORT and settled statements of 44_filterbank_host_sequences.md: how accurate the Sobel samples are, which commands a
pass sends and what the host reads of them, and what `apply_all` gives. -/

namespace Sys2Proof.HostFloat

/-! ### The roundings and the conversion of a sample (44_filterbank_host_sequences.md R144) -/

/-- The conversion truncates the clamped number. -/
theorem toPixel_bounds (x : ℚ) :
    ((toPixel x).toNat : ℝ) ≤ min (max (x : ℝ) 0) 255 ∧ min (max (x : ℝ) 0) 255 < (toPixel x).toNat + 1 := by
  have hle : ⌊min (max x 0) 255⌋₊ ≤ 255 := Nat.floor_le_of_le (by exact_mod_cast min_le_right _ _)
  have hclip : (0 : ℚ) ≤ min (max x 0) 255 := le_min (le_max_right _ _) (by norm_num)
  have hlow := Nat.floor_le hclip
  have hhigh := Nat.lt_floor_add_one (min (max x 0) 255)
  rw [toPixel, BitVec.toNat_ofNat, Nat.mod_eq_of_lt (by omega)]
  exact ⟨by exact_mod_cast hlow, by exact_mod_cast hhigh⟩

theorem toPixel_natCast {n : Nat} (hn : n ≤ 255) : toPixel (n : ℚ) = BitVec.ofNat 8 n := by
  have hq : (n : ℚ) ≤ 255 := by exact_mod_cast hn
  rw [toPixel, max_eq_left (Nat.cast_nonneg n), min_eq_left hq, Nat.floor_natCast]

theorem sqrt_pos {m : Nat} (hm : 0 < m) : 0 < sqrt m := by
  have hroot : 0 < Real.sqrt m := Real.sqrt_pos.2 (by exact_mod_cast hm)
  have herror := abs_le.1 (sqrt_error hm)
  have : (0 : ℝ) < sqrt m := by linarith
  exact_mod_cast this

theorem round_pos {x : ℚ} (hx : 0 < x) : 0 < round x := by
  have hx' : (0 : ℝ) < x := by exact_mod_cast hx
  have herror := abs_le.1 (round_error hx)
  have : (0 : ℝ) < round x := by linarith
  exact_mod_cast this

/-- The relative errors of two numbers add up in their quotient, which is at most 1. -/
theorem quotient_error {a b A B : ℝ} (hA : 0 < A) (hAB : A ≤ B) (ha : |a - A| ≤ A / 16384)
    (hb : |b - B| ≤ B / 16384) : |a / b - A / B| ≤ 2 / 16383 := by
  obtain ⟨halow, hahigh⟩ := abs_le.1 ha
  obtain ⟨hblow, hbhigh⟩ := abs_le.1 hb
  have hbpos : 0 < b := by linarith
  have hBpos : 0 < B := by linarith
  have hratio : A / B ≤ 1 := (div_le_one hBpos).2 hAB
  have hhigh : a / b ≤ A / B * (16385 / 16383) := by
    rw [div_mul_div_comm, div_le_div_iff₀ hbpos (by positivity)]
    nlinarith
  have hlow : A / B * (16383 / 16385) ≤ a / b := by
    rw [div_mul_div_comm, div_le_div_iff₀ (by positivity) hbpos]
    nlinarith
  rw [abs_le]
  constructor <;> linarith

/-- The two square roots, the quotient and the product each add a relative error of `2^-14`, which at a result of at most
255 is less than a tenth in all. -/
theorem mul_div_sqrt_error {m top : Nat} (hm : 0 < m) (hle : m ≤ top) :
    |((mul (div (sqrt m) (sqrt top)) 255 : ℚ) : ℝ) - 255 * (√m / √top)| < 1 / 10 := by
  have hpos : 0 < sqrt m / sqrt top := div_pos (sqrt_pos hm) (sqrt_pos (by omega))
  have hroot : √(m : ℝ) ≤ √top := Real.sqrt_le_sqrt (by exact_mod_cast hle)
  have hrootpos : 0 < √(m : ℝ) := Real.sqrt_pos.2 (by exact_mod_cast hm)
  have hquot := abs_le.1 (quotient_error hrootpos hroot (sqrt_error hm) (sqrt_error (by omega)))
  have hdiv := abs_le.1 (round_error hpos)
  have hmul := abs_le.1 (round_error (x := div (sqrt m) (sqrt top) * 255) (mul_pos (round_pos hpos) (by norm_num)))
  have hratio : √(m : ℝ) / √top ≤ 1 := (div_le_one (by linarith)).2 hroot
  rw [Rat.cast_mul, Rat.cast_ofNat] at hmul
  rw [Rat.cast_div] at hdiv
  rw [abs_lt, mul]
  rw [← div] at hdiv
  constructor <;> linarith

end Sys2Proof.HostFloat

namespace Sys2Proof.FilterBank

open Sys2Proof.Machine Sys2Proof.Asm

/-! ### The sample of a pixel (44_filterbank_host_sequences.md R144) -/

theorem sobelSample_zero (top : Nat) : sobelSample 0 top = 0 := by
  have hsqrt : HostFloat.sqrt 0 = 0 := by simpa using HostFloat.sqrt_sq 0
  have hround : HostFloat.round 0 = 0 := by simpa using HostFloat.round_natCast 0
  rw [sobelSample, hsqrt, HostFloat.div, zero_div, hround, HostFloat.mul, zero_mul, hround]
  exact HostFloat.toPixel_natCast (n := 0) (by decide)

theorem sobelSample_self {top : Nat} (htop : 0 < top) : sobelSample top top = 255 := by
  have hone : HostFloat.round 1 = 1 := by simpa using HostFloat.round_natCast 1
  have hround : HostFloat.round 255 = 255 := by simpa using HostFloat.round_natCast 255
  rw [sobelSample, HostFloat.div, div_self (HostFloat.sqrt_pos htop).ne', hone, HostFloat.mul, one_mul, hround]
  exact HostFloat.toPixel_natCast (n := 255) (by decide)

/-- Steps 2 and 3 of R144 without roundings and without the conversion to a pixel. -/
noncomputable def exactSample (m top : Nat) : ℝ := 255 * (√m / √top)

theorem exactSample_nonneg (m top : Nat) : 0 ≤ exactSample m top := by
  unfold exactSample
  positivity

theorem exactSample_le {m top : Nat} (hle : m ≤ top) : exactSample m top ≤ 255 := by
  have hroot : √(m : ℝ) ≤ √top := Real.sqrt_le_sqrt (by exact_mod_cast hle)
  have hratio := div_le_one_of_le₀ hroot (Real.sqrt_nonneg _)
  rw [exactSample]
  linarith

/-- The sample is the truncation of a number less than a tenth away from the exact one. -/
theorem sobelSample_bounds {m top : Nat} (hle : m ≤ top) :
    ((sobelSample m top).toNat : ℝ) < exactSample m top + 1 / 10 ∧
      exactSample m top < (sobelSample m top).toNat + 11 / 10 := by
  obtain rfl | hm := Nat.eq_zero_or_pos m
  · rw [sobelSample_zero, exactSample]
    norm_num
  have herror := abs_lt.1 (HostFloat.mul_div_sqrt_error hm hle)
  rw [← exactSample] at herror
  rw [sobelSample]
  generalize HostFloat.mul (HostFloat.div (HostFloat.sqrt m) (HostFloat.sqrt top)) 255 = r at herror ⊢
  obtain ⟨hfloor, hceil⟩ := HostFloat.toPixel_bounds r
  have hnonneg := exactSample_nonneg m top
  have hhigh := exactSample_le hle
  constructor
  · have hclip : max (r : ℝ) 0 < exactSample m top + 1 / 10 := max_lt (by linarith) (by linarith)
    linarith [min_le_left (max (r : ℝ) 0) 255]
  · obtain hr | hr := min_lt_iff.1 hceil
    · linarith [le_max_left (r : ℝ) 0]
    · linarith

theorem exactSample_sq {top : Nat} (htop : 0 < top) (m : Nat) :
    (10 * exactSample m top) ^ 2 * top = 6502500 * m := by
  have htop' : (top : ℝ) ≠ 0 := by exact_mod_cast htop.ne'
  rw [exactSample, mul_pow, mul_pow, div_pow, Real.sq_sqrt (Nat.cast_nonneg m), Real.sq_sqrt (Nat.cast_nonneg top)]
  field_simp
  ring

/-! A comparison of the exact sample with a number of tenths is a comparison of whole numbers. -/

theorem le_exactSample_iff {m top : Nat} (htop : 0 < top) (n : Nat) :
    (n : ℝ) ≤ 10 * exactSample m top ↔ n ^ 2 * top ≤ 6502500 * m := by
  have htop' : (0 : ℝ) < top := by exact_mod_cast htop
  have hnonneg : 0 ≤ 10 * exactSample m top := mul_nonneg (by norm_num) (exactSample_nonneg m top)
  rw [← pow_le_pow_iff_left₀ (Nat.cast_nonneg n) hnonneg two_ne_zero, ← mul_le_mul_iff_left₀ htop',
    exactSample_sq htop]
  exact_mod_cast Iff.rfl

theorem exactSample_le_iff {m top : Nat} (htop : 0 < top) (n : Nat) :
    10 * exactSample m top ≤ n ↔ 6502500 * m ≤ n ^ 2 * top := by
  have htop' : (0 : ℝ) < top := by exact_mod_cast htop
  have hnonneg : 0 ≤ 10 * exactSample m top := mul_nonneg (by norm_num) (exactSample_nonneg m top)
  rw [← pow_le_pow_iff_left₀ hnonneg (Nat.cast_nonneg n) two_ne_zero, ← mul_le_mul_iff_left₀ htop',
    exactSample_sq htop]
  exact_mod_cast Iff.rfl

theorem sobelSample_near_floor {m top : Nat} (htop : 0 < top) (hle : m ≤ top) :
    (sobelSample m top).toNat ≤ Nat.sqrt (65025 * m / top) + 1 ∧
      Nat.sqrt (65025 * m / top) ≤ (sobelSample m top).toNat + 1 := by
  obtain ⟨hlow, hhigh⟩ := sobelSample_bounds hle
  generalize hq : Nat.sqrt (65025 * m / top) = q
  have hqlow : ((10 * q : Nat) : ℝ) ≤ 10 * exactSample m top := by
    rw [le_exactSample_iff htop]
    have := (Nat.le_div_iff_mul_le htop).1 (hq ▸ Nat.sqrt_le' (65025 * m / top))
    linarith
  have hqhigh : 10 * exactSample m top ≤ ((10 * (q + 1) : Nat) : ℝ) := by
    rw [exactSample_le_iff htop]
    have := (Nat.div_lt_iff_lt_mul htop).1 (hq ▸ Nat.lt_succ_sqrt' (65025 * m / top))
    rw [Nat.succ_eq_add_one] at this
    linarith
  push_cast at hqlow hqhigh
  constructor
  · have : ((sobelSample m top).toNat : ℝ) < q + 1 + 1 := by linarith
    exact Nat.lt_succ_iff.1 (by exact_mod_cast this)
  · have : (q : ℝ) < (sobelSample m top).toNat + 1 + 1 := by linarith
    exact Nat.lt_succ_iff.1 (by exact_mod_cast this)

/-- At least a tenth away from the whole numbers the sample is the exact one truncated. -/
theorem sobelSample_toNat_eq {m top k : Nat} (htop : 0 < top) (hle : m ≤ top)
    (hklow : (10 * k + 1) ^ 2 * top ≤ 6502500 * m) (hkhigh : 6502500 * m ≤ (10 * k + 9) ^ 2 * top) :
    (sobelSample m top).toNat = k := by
  obtain ⟨hlow, hhigh⟩ := sobelSample_bounds hle
  have hmlow := (le_exactSample_iff htop _).2 hklow
  have hmhigh := (exactSample_le_iff htop _).2 hkhigh
  push_cast at hmlow hmhigh
  have hlt : ((sobelSample m top).toNat : ℝ) < k + 1 := by linarith
  have hgt : (k : ℝ) < (sobelSample m top).toNat + 1 := by linarith
  norm_cast at hlt hgt
  omega

/-! ### The combination (44_filterbank_host_sequences.md R144, R145) -/

theorem foldl_max_le_iff {ms : List Nat} {a b : Nat} : ms.foldl max a ≤ b ↔ a ≤ b ∧ ∀ m ∈ ms, m ≤ b := by
  induction ms generalizing a with
  | nil => simp
  | cons m ms ih => rw [List.foldl_cons, ih, max_le_iff, List.forall_mem_cons, and_assoc]

theorem sobelCombine_of_zero {ex ey : List Pixel} (hzero : ∀ m ∈ magnitudeSquares ex ey, m = 0) :
    sobelCombine ex ey = ((magnitudeSquares ex ey).map fun _ => 0, true) :=
  if_pos (Nat.le_zero.1 (foldl_max_le_iff.2 ⟨le_rfl, fun m hm => (hzero m hm).le⟩))

theorem sobelCombine_of_top {ex ey : List Pixel} {top : Nat} (htop : 0 < top) (hmem : top ∈ magnitudeSquares ex ey)
    (hmax : ∀ m ∈ magnitudeSquares ex ey, m ≤ top) :
    sobelCombine ex ey = ((magnitudeSquares ex ey).map (sobelSample · top), false) := by
  have hfold : (magnitudeSquares ex ey).foldl max 0 = top :=
    le_antisymm (foldl_max_le_iff.2 ⟨htop.le, hmax⟩) ((foldl_max_le_iff.1 le_rfl).2 top hmem)
  rw [sobelCombine, hfold]
  exact if_neg htop.ne'

theorem sobelCombine_degenerate_iff {ex ey : List Pixel} :
    (sobelCombine ex ey).2 = true ↔ ∀ m ∈ magnitudeSquares ex ey, m = 0 := by
  refine ⟨fun h m hm => ?_, fun h => by rw [sobelCombine_of_zero h]⟩
  simp only [sobelCombine] at h
  split at h
  case isTrue htop => exact Nat.le_zero.1 ((foldl_max_le_iff.1 htop.le).2 m hm)
  case isFalse => cases h

theorem magnitudeSquares_zero_iff {ex ey : List Pixel} (hlen : ex.length = ey.length) :
    (∀ m ∈ magnitudeSquares ex ey, m = 0) ↔ (∀ x ∈ ex, x = 0) ∧ ∀ y ∈ ey, y = 0 := by
  induction ex generalizing ey with
  | nil => cases ey <;> simp_all [magnitudeSquares]
  | cons x ex ih =>
    cases ey with
    | nil => cases hlen
    | cons y ey =>
      have hhead : x.toNat ^ 2 + y.toNat ^ 2 = 0 ↔ x = 0 ∧ y = 0 := by simp [BitVec.toNat_eq]
      rw [magnitudeSquares, List.zipWith_cons_cons, ← magnitudeSquares]
      simp only [List.forall_mem_cons, hhead, ih (Nat.succ.inj hlen), and_and_and_comm]

theorem magnitudeSquares_getElem? {ex ey : List Pixel} {j m : Nat} :
    (magnitudeSquares ex ey)[j]? = some m ↔
      ∃ x y, ex[j]? = some x ∧ ey[j]? = some y ∧ x.toNat ^ 2 + y.toNat ^ 2 = m := by
  rw [magnitudeSquares, List.getElem?_zipWith_eq_some]

/-- Settles O49: the largest sum of squares is 0 exactly when all are, and a sum of squares when both its terms are. -/
theorem degenerateExactlyWhenAllZero : Obligations.DegenerateExactlyWhenAllZero := by
  intro ex ey hlen
  refine ⟨sobelCombine_degenerate_iff.trans (magnitudeSquares_zero_iff hlen), fun hdegenerate p hp => ?_, ?_⟩
  · rw [sobelCombine_of_zero (sobelCombine_degenerate_iff.1 hdegenerate)] at hp
    obtain ⟨m, -, rfl⟩ := List.mem_map.1 hp
    rfl
  · rw [sobelCombine_length, hlen, min_self]

/-- Settles O51: `top` is the largest sum of squares, so the sample is `sobelSample m top`, of which `sobelSample_bounds`
gives the accuracy and `sobelSample_zero` and `sobelSample_self` the two ends. -/
theorem sobelSamplesFollowTheSteps : Obligations.SobelSamplesFollowTheSteps := by
  intro ex ey top hlen htop hmax ⟨i, xtop, ytop, hxtop, hytop, htopeq⟩ j x y m hx hy hm
  have hmem : top ∈ magnitudeSquares ex ey :=
    List.mem_of_getElem? (magnitudeSquares_getElem?.2 ⟨xtop, ytop, hxtop, hytop, htopeq⟩)
  have hmaxmem : ∀ m ∈ magnitudeSquares ex ey, m ≤ top := by
    intro m hm
    obtain ⟨i, hi⟩ := List.mem_iff_getElem?.1 hm
    obtain ⟨x, y, hx, hy, rfl⟩ := magnitudeSquares_getElem?.1 hi
    exact hmax i x y hx hy
  have hle : m ≤ top := hm ▸ hmax j x y hx hy
  obtain ⟨hupper, hlower⟩ := sobelSample_near_floor htop hle
  refine ⟨sobelSample m top, ?_, ?_, ?_, hupper, hlower, fun k => sobelSample_toNat_eq htop hle⟩
  · rw [sobelCombine_of_top htop hmem hmaxmem, List.getElem?_map, magnitudeSquares_getElem?.2 ⟨x, y, hx, hy, hm⟩]
    rfl
  · rintro rfl
    exact sobelSample_zero top
  · rintro rfl
    exact sobelSample_self htop

/-- Settles O52: between the two ends only `255 * sqrt(1 / 2)` and `255 * sqrt(8 / 9)` occur, 180.3 and 240.4, which are
far enough from the whole numbers. -/
theorem sobelOfTheTestVectors : Obligations.SobelOfTheTestVectors := by
  have sample {m top k : Nat} (htop : 0 < top) (hle : m ≤ top) (hklow : (10 * k + 1) ^ 2 * top ≤ 6502500 * m)
      (hkhigh : 6502500 * m ≤ (10 * k + 9) ^ 2 * top) : sobelSample m top = BitVec.ofNat 8 k := by
    rw [← sobelSample_toNat_eq htop hle hklow hkhigh, BitVec.ofNat_toNat, BitVec.setWidth_eq]
  constructor
  · rw [sobelCombine_of_top (top := 130050) (by decide) (by decide) (by decide)]
    have half : sobelSample 65025 130050 = 180 := sample (by decide) (by decide) (by decide) (by decide)
    simp [magnitudeSquares, sobelSample_zero, sobelSample_self, half]
  · rw [sobelCombine_of_top (top := 45000) (by decide) (by decide) (by decide)]
    have half : sobelSample 22500 45000 = 180 := sample (by decide) (by decide) (by decide) (by decide)
    have eightNinths : sobelSample 40000 45000 = 240 := sample (by decide) (by decide) (by decide) (by decide)
    simp [magnitudeSquares, sobelSample_zero, sobelSample_self, half, eightNinths]

/-- Settles O54: the check on the dimensions comes before the first program is sent. -/
theorem emptyImageNeverReachesTheEngine : Obligations.EmptyImageNeverReachesTheEngine :=
  fun _ _ _ hempty => if_pos hempty

end Sys2Proof.FilterBank

namespace Sys2Proof.Machine

/-! ### The commands of a pass on the engine (44_filterbank_host_sequences.md R142) -/

theorem runWords_cons_encode {i : Instr} {s t : State} (h : exec i s = .next t) (is : List Instr) :
    runWords ((i :: is).map encode) s = runWords (is.map encode) t :=
  runWords_cons ((execWord_encode i s).trans h) _

/-- `LDW` to a position of the kernel store. -/
def isWeightLoad : Instr → Bool
  | .ldw u v _ => kernelIndexOk u && kernelIndexOk v
  | _ => false

theorem exec_of_isWeightLoad {i : Instr} (h : isWeightLoad i = true) (s : State) :
    ∃ row col n, exec i s = .next ((s.setWeight row col n).respond 0) := by
  cases i with
  | ldw u v n =>
    obtain ⟨hu, hv⟩ := Bool.and_eq_true_iff.1 h
    rw [kernelIndexOk_iff] at hu hv
    exact ⟨⟨u.toNat, hu⟩, ⟨v.toNat, hv⟩, n, execLdw_success rfl rfl n s⟩
  | _ => cases h

/-- Weight loads change the weights alone, each load answered with 0. -/
theorem runWords_weightLoads {is : List Instr} (h : ∀ i ∈ is, isWeightLoad i = true) (s : State) :
    ∃ k, runWords (is.map encode) s =
      some { s with k := k, responses := s.responses ++ List.replicate is.length 0#32 } := by
  induction is generalizing s with
  | nil => exact ⟨s.k, by simp⟩
  | cons i is ih =>
    obtain ⟨hi, his⟩ := List.forall_mem_cons.1 h
    obtain ⟨row, col, n, hexec⟩ := exec_of_isWeightLoad hi s
    obtain ⟨k, hrun⟩ := ih his ((s.setWeight row col n).respond 0)
    refine ⟨k, (runWords_cons_encode hexec is).trans (hrun.trans ?_)⟩
    rw [State.respond_responses, List.append_assoc]
    rfl

/-- `SETKRN 3, 3`, then weight loads alone. -/
def loadsKernel : List Instr → Bool
  | i :: loads => i == .setkrn 3 3 && loads.all isWeightLoad
  | [] => false

/-- `t` is `s` with a 3x3 kernel loaded, each command answered with 0, and the image as it was. -/
structure KernelLoaded (s t : State) : Prop where
  kernelDims : t.kH = 3 ∧ t.kW = 3
  imageDims : t.imgW = s.imgW ∧ t.imgH = s.imgH
  responses : ∃ n, t.responses = s.responses ++ List.replicate n 0#32

theorem runWords_loadsKernel {is : List Instr} (h : loadsKernel is = true) (s : State) :
    ∃ t, runWords (is.map encode) s = some t ∧ KernelLoaded s t := by
  cases is with
  | nil => cases h
  | cons i loads =>
    simp only [loadsKernel, Bool.and_eq_true, beq_iff_eq, List.all_eq_true] at h
    obtain ⟨rfl, hloads⟩ := h
    obtain ⟨k, hrun⟩ := runWords_weightLoads hloads ((s.setKernel 3 3).respond 0)
    have hexec : exec (.setkrn 3 3) s = .next ((s.setKernel 3 3).respond 0) := rfl
    refine ⟨_, (runWords_cons_encode hexec loads).trans hrun, ⟨rfl, rfl⟩, ⟨rfl, rfl⟩, loads.length + 1, ?_⟩
    rw [State.respond_responses, List.append_assoc]
    rfl

/-- `RDPX`s only deliver their answers. -/
theorem runWords_rdpx (as : List PixelAddr) (s : State) :
    runWords ((as.map Instr.rdpx).map encode) s =
      some { s with responses := s.responses ++ as.map s.rdpxAnswer } := by
  induction as generalizing s with
  | nil => simp
  | cons a as ih =>
    have hanswers : (s.deliver (s.rdpxAnswer a)).rdpxAnswer = s.rdpxAnswer := rfl
    rw [List.map_cons, runWords_cons_encode (exec_rdpx a s), ih, hanswers, State.deliver_responses, List.append_assoc]
    rfl

end Sys2Proof.Machine

namespace Sys2Proof.Asm

/-! ### The lines `apply_all` sends assemble (30_encoding.md R82) -/

theorem mapM_eq_some_map {α β : Type} {f : α → Option β} {g : α → β} {l : List α}
    (h : ∀ a ∈ l, f a = some (g a)) : l.mapM f = some (l.map g) := by
  induction l with
  | nil => rfl
  | cons a l ih =>
    obtain ⟨ha, hl⟩ := List.forall_mem_cons.1 h
    rw [List.mapM_cons, ha, ih hl]
    rfl

theorem natField_of_lt {width n : Nat} (h : n < 2 ^ width) : natField width n = some (BitVec.ofNat width n) := if_pos h

theorem readoutCommands_eq {m : Nat} (hm : m ≤ 1048576) :
    readoutCommands m = some (((List.range m).map (BitVec.ofNat 20)).map Instr.rdpx) := by
  rw [List.map_map]
  refine mapM_eq_some_map fun a ha => ?_
  rw [natField_of_lt (lt_of_lt_of_le (List.mem_range.1 ha) hm)]
  rfl

theorem ldpxAt_of_lt {a p : Nat} (ha : a < 1048576) (hp : p < 256) :
    ldpxAt a p = some (.ldpx (BitVec.ofNat 20 a) (BitVec.ofNat 8 p)) := by
  rw [ldpxAt, natField_of_lt ha, natField_of_lt hp]
  rfl

theorem imageCommands_isSome {w h : Nat} {ps : List Pixel} (hlen : ps.length = w * h) (hw : w ≤ 16383) (hh : h ≤ 16383)
    (hfits : w * h ≤ 1048576) : ∃ is, imageCommands w h (ps.map BitVec.toNat) = some is := by
  have hlen' : (ps.map BitVec.toNat).length = w * h := by rw [List.length_map, hlen]
  have hload (p : Nat × Nat) (hp : p ∈ (ps.map BitVec.toNat).zipIdx) :
      ldpxAt p.2 p.1 = some (.ldpx (BitVec.ofNat 20 p.2) (BitVec.ofNat 8 p.1)) := by
    obtain ⟨-, haddr, hvalue⟩ := List.mem_zipIdx hp
    refine ldpxAt_of_lt (by omega) ?_
    rw [hvalue, List.getElem_map]
    exact BitVec.isLt _
  rw [imageCommands, if_neg (not_not.2 hlen'), natField_of_lt (by omega), natField_of_lt (by omega),
    mapM_eq_some_map hload]
  exact ⟨_, rfl⟩

theorem program_single {l : Line} {is : List Instr} (h : assemble l = some is) : program [l] = some (is.map encode) := by
  simp [program, h]

end Sys2Proof.Asm

namespace Sys2Proof.FilterBank

open Sys2Proof.Machine Sys2Proof.Asm

/-! ### What the host reads (44_filterbank_host_sequences.md R148) -/

theorem sendProgram_of_run {lines : List Line} {words rs : List Word} {s t : State} (hprogram : program lines = some words)
    (hrun : runWords words s = some t) (hresponses : t.responses = s.responses ++ rs) :
    sendProgram lines s = some ((firstErrorOf rs).elim (.ok rs) .error, t) := by
  simp only [sendProgram, hprogram, Option.bind_eq_bind, Option.bind_some, hrun, newResponses_eq hresponses]
  cases firstErrorOf rs <;> rfl

/-- Commands answered with 0 are no errors. -/
theorem firstErrorOf_zeros_append (n : Nat) (rs : List Word) :
    firstErrorOf (List.replicate n 0#32 ++ rs) = firstErrorOf rs := by
  have hzero : rspError 0#32 = 0 := rfl
  simp [firstErrorOf, hzero]

/-! ### A pass (44_filterbank_host_sequences.md R142) -/

/-- The kernel assembles to the commands that load it. -/
def Loadable (kernel : List WeightLit) : Prop := ∃ is, kernelCommands 3 3 kernel = some is ∧ loadsKernel is = true

theorem loadable_of_mem_filters {f : Filter} (hf : f ∈ filters) {kernel : List WeightLit} (hk : kernel ∈ f.kernels) :
    Loadable kernel := by
  have hall : ∀ f ∈ filters, ∀ kernel ∈ f.kernels, (kernelCommands 3 3 kernel).any loadsKernel = true := by decide
  exact (Option.any_eq_true _ _).1 (hall f hf kernel hk)

/-- The first program of a pass: the kernel is loaded, then `CONV` gives its answer. -/
theorem sendProgram_kernel_conv {kernel : List WeightLit} (hk : Loadable kernel) (s : State) :
    ∃ u, KernelLoaded s u ∧ ∀ t r, exec .conv u = .next t → t.responses = u.responses ++ [r] →
      ∃ rs, sendProgram [.kernel 3 3 kernel, .conv] s = some ((firstErrorOf [r]).elim (.ok rs) .error, t) := by
  obtain ⟨is, his, hloads⟩ := hk
  obtain ⟨u, hrun, hloaded⟩ := runWords_loadsKernel hloads s
  refine ⟨u, hloaded, fun t r hconv hr => ?_⟩
  obtain ⟨n, hn⟩ := hloaded.responses
  have hprogram : program [.kernel 3 3 kernel, .conv] = some (is.map encode ++ [Instr.conv].map encode) := by
    simp [program, assemble, his]
  have hrunAll : runWords (is.map encode ++ [Instr.conv].map encode) s = some t := by
    rw [runWords_append, hrun]
    exact runWords_cons_encode hconv []
  have hresponses : t.responses = s.responses ++ (List.replicate n 0#32 ++ [r]) := by rw [hr, hn, List.append_assoc]
  refine ⟨List.replicate n 0#32 ++ [r], ?_⟩
  rw [sendProgram_of_run hprogram hrunAll hresponses, firstErrorOf_zeros_append]

theorem pass_of_failed {kernel : List WeightLit} {s t : State} {e : BitVec 4}
    (hsent : sendProgram [.kernel 3 3 kernel, .conv] s = some (.error e, t)) (m : Nat) :
    pass kernel m s = some (.error e, t) := by
  simp only [pass, hsent, Option.bind_eq_bind, Option.bind_some, Option.pure_def]

theorem pass_of_read {kernel : List WeightLit} {s t u : State} {answers rs : List Word} {m : Nat}
    (hsent : sendProgram [.kernel 3 3 kernel, .conv] s = some (.ok answers, t))
    (hread : sendProgram [.readout m] t = some (.ok rs, u)) : pass kernel m s = some (.ok (samplesOf rs), u) := by
  simp only [pass, hsent, Option.bind_eq_bind, Option.bind_some, hread]
  rfl

/-- On an engine without an image a pass fails with `EmptyImage`. -/
theorem pass_emptyImage {kernel : List WeightLit} (hk : Loadable kernel) (m : Nat) {s : State}
    (hempty : s.imgW = 0 ∨ s.imgH = 0) : ∃ t, pass kernel m s = some (.error 2, t) ∧ (t.imgW = 0 ∨ t.imgH = 0) := by
  obtain ⟨u, ⟨⟨hkH, hkW⟩, ⟨himgW, himgH⟩, -⟩, hsend⟩ := sendProgram_kernel_conv hk s
  rw [← himgW, ← himgH] at hempty
  have hconv : exec .conv u = .next (u.raise .emptyImage) := execConv_of_empty_image (by rw [hkH, hkW]; decide) hempty
  obtain ⟨rs, hsent⟩ := hsend _ _ hconv rfl
  have hcode : firstErrorOf [responseWord .emptyImage 0] = some 2 := by decide
  rw [hcode, Option.elim_some] at hsent
  exact ⟨_, pass_of_failed hsent m, hempty⟩

/-- The engine holds an image of `w` by `h` pixels that fits the block. -/
structure HoldsImage (s : State) (w h : Nat) : Prop where
  imgW : s.imgW.toNat = w
  imgH : s.imgH.toNat = h
  nonempty : 1 ≤ w ∧ 1 ≤ h
  fits : w * h ≤ 1048576

/-- `READOUT` of a result of `m` pixels gives a sample for each and changes nothing but the responses. -/
theorem sendProgram_readout {s : State} {m : Nat} (hvalid : s.ovalid = true) (hsize : s.outW.toNat * s.outH.toNat = m)
    (hm : m ≤ 1048576) :
    ∃ rs, rs.length = m ∧ sendProgram [.readout m] s = some (.ok rs, { s with responses := s.responses ++ rs }) := by
  have hprogram := program_single (l := .readout m) (readoutCommands_eq hm)
  refine ⟨((List.range m).map (BitVec.ofNat 20)).map s.rdpxAnswer, by simp, ?_⟩
  rw [sendProgram_of_run hprogram (runWords_rdpx _ s) rfl, firstErrorOf_eq_none.2, Option.elim_none]
  simp only [List.forall_mem_map, List.mem_range]
  intro a ha
  have hinside : (BitVec.ofNat 20 a).toNat < s.outW.toNat * s.outH.toNat := by
    rw [BitVec.toNat_ofNat, Nat.mod_eq_of_lt (by omega), hsize]
    exact ha
  rw [State.rdpxAnswer_pixel hvalid hinside, ← responseWord_pixel, rspError_responseWord]
  rfl

theorem pass_success {kernel : List WeightLit} (hk : Loadable kernel) {s : State} {w h : Nat} (hs : HoldsImage s w h) :
    ∃ out t, pass kernel (w * h) s = some (.ok out, t) ∧ out.length = w * h ∧ HoldsImage t w h := by
  obtain ⟨u, ⟨⟨hkH, hkW⟩, ⟨himgW, himgH⟩, -⟩, hsend⟩ := sendProgram_kernel_conv hk s
  have hready : Spec.ConvReady u := by
    obtain ⟨rfl, rfl, ⟨hw, hh⟩, hfits⟩ := hs
    refine ⟨.inr (.inl hkH), .inr (.inl hkW), ?_, ?_, ?_⟩ <;> simp only [himgW, himgH] <;> assumption
  obtain ⟨answers, hsent⟩ := hsend _ _ (exec_conv_of_ready hready) rfl
  have hnone : firstErrorOf [responseWord .ok 0] = none := by decide
  rw [hnone, Option.elim_none] at hsent
  have hsize : u.imgW.toNat * u.imgH.toNat = w * h := by rw [himgW, himgH, hs.imgW, hs.imgH]
  obtain ⟨rs, hlen, hread⟩ := sendProgram_readout (s := (u.publish u.convImage).respond 0) rfl hsize hs.fits
  exact ⟨_, _, pass_of_read hsent hread, by rw [samplesOf, List.length_map, hlen],
    himgW ▸ hs.imgW, himgH ▸ hs.imgH, hs.nonempty, hs.fits⟩

/-! ### The passes of a filter (44_filterbank_host_sequences.md R142, R143) -/

theorem passes_cons_failed {k : List WeightLit} {m : Nat} {s t : State} {e : BitVec 4}
    (h : pass k m s = some (.error e, t)) (ks : List (List WeightLit)) : passes (k :: ks) m s = some (.error e, t) := by
  simp only [passes, h, Option.bind_eq_bind, Option.bind_some, Option.pure_def]

theorem passes_cons_passed {k : List WeightLit} {ks : List (List WeightLit)} {m : Nat} {s t u : State}
    {out : List Pixel} {outs : List (List Pixel)} (h : pass k m s = some (.ok out, t))
    (hrest : passes ks m t = some (.ok outs, u)) : passes (k :: ks) m s = some (.ok (out :: outs), u) := by
  simp only [passes, h, Option.bind_eq_bind, Option.bind_some, hrest]
  rfl

theorem passes_success {ks : List (List WeightLit)} (hks : ∀ k ∈ ks, Loadable k) {s : State} {w h : Nat}
    (hs : HoldsImage s w h) :
    ∃ outs t, passes ks (w * h) s = some (.ok outs, t) ∧ outs.length = ks.length ∧
      (∀ out ∈ outs, out.length = w * h) ∧ HoldsImage t w h := by
  induction ks generalizing s with
  | nil => exact ⟨[], s, rfl, rfl, List.forall_mem_nil _, hs⟩
  | cons k ks ih =>
    obtain ⟨hk, hks⟩ := List.forall_mem_cons.1 hks
    obtain ⟨out, t, hpass, hout, ht⟩ := pass_success hk hs
    obtain ⟨outs, u, hpasses, hlen, houts, hu⟩ := ih hks ht
    exact ⟨out :: outs, u, passes_cons_passed hpass hpasses, congrArg (· + 1) hlen,
      List.forall_mem_cons.2 ⟨hout, houts⟩, hu⟩

theorem passes_emptyImage {f : Filter} (hf : f ∈ filters) (m : Nat) {s : State} (hempty : s.imgW = 0 ∨ s.imgH = 0) :
    ∃ t, passes f.kernels m s = some (.error 2, t) ∧ (t.imgW = 0 ∨ t.imgH = 0) := by
  have hkernels : ∀ f ∈ filters, f.kernels ≠ [] := by decide
  obtain ⟨k, ks, hcons⟩ := List.exists_cons_of_ne_nil (hkernels f hf)
  have hk : k ∈ f.kernels := hcons ▸ List.mem_cons_self
  obtain ⟨t, hpass, ht⟩ := pass_emptyImage (loadable_of_mem_filters hf hk) m hempty
  exact ⟨t, hcons ▸ passes_cons_failed hpass ks, ht⟩

/-! ### The filters (44_filterbank_host_sequences.md R146, R148) -/

/-- The results are those there were and one for each filter, in order. -/
theorem applyFilters_names {caller : Caller} {done rs : List FilterResult} {fs : List Filter} {w h : Nat} {s t : State}
    (hok : applyFilters caller done fs w h s = some (.ok rs, t)) :
    ∃ new, rs = done ++ new ∧ new.map (·.name) = fs.map (·.name) := by
  induction fs generalizing done s with
  | nil =>
    cases hok
    exact ⟨[], (List.append_nil _).symm, rfl⟩
  | cons f fs ih =>
    have extend {r : FilterResult} {u : State} (hr : r.name = f.name)
        (hrest : applyFilters caller (done ++ [r]) fs w h u = some (.ok rs, t)) :
        ∃ new, rs = done ++ new ∧ new.map (·.name) = (f :: fs).map (·.name) := by
      obtain ⟨new, rfl, hnew⟩ := ih hrest
      exact ⟨r :: new, List.append_assoc .., by rw [List.map_cons, List.map_cons, hr, hnew]⟩
    cases hpasses : passes f.kernels (w * h) s with
    | none => simp [applyFilters, hpasses] at hok
    | some result =>
      obtain ⟨e | outs, u⟩ := result
      · rw [applyFilters_failed hpasses] at hok
        cases hcaller : caller done f.name e <;> rw [hcaller] at hok
        case skip => exact extend rfl hok
        case abort => cases hok
      · rw [applyFilters_passed hpasses] at hok
        exact extend (resultOf_name f w h outs) hok

/-- The result is a buffer of `w` by `h` samples. -/
def FilterResult.HasSize (r : FilterResult) (w h : Nat) : Prop :=
  ∃ b : PixelBuffer, r.outcome = .ok b ∧ b.width = w ∧ b.height = h ∧ b.samples.length = w * h

theorem resultOf_hasSize {f : Filter} (hf : f ∈ filters) {w h : Nat} {outs : List (List Pixel)}
    (hlen : outs.length = f.kernels.length) (houts : ∀ out ∈ outs, out.length = w * h) :
    (resultOf f w h outs).HasSize w h := by
  have hkernels : ∀ f ∈ filters, f.kernels.length = if f.combination = .sobel then 2 else 1 := by decide
  rw [hkernels f hf] at hlen
  have hout {i : Nat} (hi : i < outs.length) : (outs.getD i []).length = w * h := by
    rw [List.getD_eq_getElem _ _ hi]
    exact houts _ (List.getElem_mem hi)
  unfold resultOf
  cases hf : f.combination <;> simp only [hf, reduceCtorEq, if_true, if_false] at hlen
  case linear => exact ⟨_, rfl, rfl, rfl, hout (by omega)⟩
  case sobel =>
    refine ⟨_, rfl, rfl, rfl, ?_⟩
    rw [sobelCombine_length, hout (by omega), hout (by omega), min_self]

theorem applyFilters_success {fs : List Filter} (hfs : ∀ f ∈ fs, f ∈ filters) (caller : Caller) {w h : Nat}
    {done : List FilterResult} (hdone : ∀ r ∈ done, r.HasSize w h) {s : State} (hs : HoldsImage s w h) :
    ∃ rs t, applyFilters caller done fs w h s = some (.ok rs, t) ∧ ∀ r ∈ rs, r.HasSize w h := by
  induction fs generalizing done s with
  | nil => exact ⟨done, s, rfl, hdone⟩
  | cons f fs ih =>
    obtain ⟨hf, hfs⟩ := List.forall_mem_cons.1 hfs
    obtain ⟨outs, t, hpasses, hlen, houts, ht⟩ := passes_success (fun k => loadable_of_mem_filters hf) hs
    rw [applyFilters_passed hpasses]
    refine ih hfs (List.forall_mem_append.2 ⟨hdone, List.forall_mem_singleton.2 ?_⟩) ht
    exact resultOf_hasSize hf hlen houts

/-- What a skipped filter leaves among the results where the engine holds no image. -/
def failedResult (name : String) : FilterResult := ⟨name, .error 2, false⟩

/-- An engine without an image: a caller that aborts at one filter, if not at an earlier one, ends the batch. -/
theorem applyFilters_aborted {fs : List Filter} (hfs : ∀ f ∈ fs, f ∈ filters) {caller : Caller} (w h : Nat)
    {done : List FilterResult} {s : State} (hempty : s.imgW = 0 ∨ s.imgH = 0) {k : Nat} {name : String}
    (hname : (fs.map (·.name))[k]? = some name)
    (habort : caller (done ++ ((fs.map (·.name)).map failedResult).take k) name 2 = .abort) :
    ∃ t, applyFilters caller done fs w h s = some (.error 2, t) := by
  induction fs generalizing done s k with
  | nil => cases hname
  | cons f fs ih =>
    obtain ⟨hf, hfs⟩ := List.forall_mem_cons.1 hfs
    obtain ⟨t, hpasses, ht⟩ := passes_emptyImage hf (w * h) hempty
    rw [applyFilters_failed hpasses]
    cases hcaller : caller done f.name 2 with
    | abort => exact ⟨t, rfl⟩
    | skip =>
      cases k with
      | zero =>
        cases hname
        rw [List.take_zero, List.append_nil, hcaller] at habort
        cases habort
      | succ k =>
        refine ih hfs ht hname ?_
        rw [List.append_assoc]
        exact habort

/-- An engine without an image: a caller that skips every filter gets all of them, failed. -/
theorem applyFilters_skipped {fs : List Filter} (hfs : ∀ f ∈ fs, f ∈ filters) {caller : Caller} (w h : Nat)
    {done : List FilterResult} {s : State} (hempty : s.imgW = 0 ∨ s.imgH = 0)
    (hskip : ∀ (k : Nat) (name : String), (fs.map (·.name))[k]? = some name →
      caller (done ++ ((fs.map (·.name)).map failedResult).take k) name 2 = .skip) :
    ∃ t, applyFilters caller done fs w h s = some (.ok (done ++ (fs.map (·.name)).map failedResult), t) := by
  induction fs generalizing done s with
  | nil => exact ⟨s, by rw [applyFilters, List.map_nil, List.map_nil, List.append_nil]⟩
  | cons f fs ih =>
    obtain ⟨hf, hfs⟩ := List.forall_mem_cons.1 hfs
    obtain ⟨t, hpasses, ht⟩ := passes_emptyImage hf (w * h) hempty
    have hcaller : caller done f.name 2 = .skip := by
      simpa using hskip 0 f.name rfl
    have hrest := ih (done := done ++ [failedResult f.name]) hfs ht fun k name hname => by
      rw [List.append_assoc]
      exact hskip (k + 1) name hname
    rw [List.append_assoc] at hrest
    rw [applyFilters_failed hpasses, hcaller]
    exact hrest

/-! ### `apply_all` (44_filterbank_host_sequences.md R146) -/

/-- The results of `apply_all` are those of the filters after the input's copy. -/
theorem applyFilters_of_applyAll {caller : Caller} {img : PixelBuffer} {s t : State} {rs : List FilterResult}
    (hok : applyAll caller img s = some (.ok rs, t)) :
    ∃ u, applyFilters caller [⟨"Input", .ok img, false⟩] filters img.width img.height u = some (.ok rs, t) := by
  unfold applyAll at hok
  split at hok
  case isTrue => cases hok
  case isFalse =>
    cases hsent : sendProgram [.image img.width img.height (img.samples.map BitVec.toNat)] s with
    | none => simp [hsent] at hok
    | some result =>
      obtain ⟨e | answers, u⟩ := result <;>
        simp only [hsent, Option.bind_eq_bind, Option.bind_some, Option.pure_def] at hok
      · cases hok
      · exact ⟨u, hok⟩

/-- An image that fits the block is loaded without an error. -/
theorem sendProgram_image {w h : Nat} {ps : List Pixel} (hlen : ps.length = w * h) (hw : 1 ≤ w ∧ w ≤ 16383)
    (hh : 1 ≤ h ∧ h ≤ 16383) (hfits : w * h ≤ 1048576) (s : State) :
    ∃ rs t, sendProgram [.image w h (ps.map BitVec.toNat)] s = some (.ok rs, t) ∧ HoldsImage t w h := by
  obtain ⟨is, his⟩ := imageCommands_isSome hlen hw.2 hh.2 hfits
  obtain ⟨t, hrun, himgW, himgH, -, -, -, -, hzero⟩ := imageProgramLoadsTheImage w h _ is s his hfits
  refine ⟨newResponses s t, t, ?_, himgW, himgH, ⟨hw.1, hh.1⟩, hfits⟩
  have hnone : firstErrorOf (newResponses s t) = none := firstErrorOf_eq_none.2 fun r hr => by rw [hzero r hr]; rfl
  have hprogram := program_single (l := .image w h (ps.map BitVec.toNat)) his
  simp only [sendProgram, hprogram, hrun, Option.bind_eq_bind, Option.bind_some, hnone]
  rfl

/-- Settles O50: the filters add one result each to the input's copy, under their names. -/
theorem applyAllGivesSixResultsInOrder : Obligations.ApplyAllGivesSixResultsInOrder := by
  intro caller img s t rs hok
  obtain ⟨u, hfilters⟩ := applyFilters_of_applyAll hok
  obtain ⟨new, rfl, hnew⟩ := applyFilters_names hfilters
  exact ⟨by rw [List.map_append, hnew]; rfl, rfl⟩

/-- Settles O53: the image is loaded, every pass succeeds on it, and the names are those of O50. -/
theorem applyAllSucceedsOnEveryValidImage : Obligations.ApplyAllSucceedsOnEveryValidImage := by
  intro caller img s hlen hw hw' hh hh' hfits
  obtain ⟨answers, u, hsent, hu⟩ := sendProgram_image hlen ⟨hw, hw'⟩ ⟨hh, hh'⟩ hfits s
  have hinput : ∀ r ∈ [FilterResult.mk "Input" (.ok img) false], r.HasSize img.width img.height :=
    List.forall_mem_singleton.2 ⟨img, rfl, rfl, rfl, hlen⟩
  obtain ⟨rs, t, hfilters, hsizes⟩ := applyFilters_success (fun f hf => hf) caller hinput hu
  have hok : applyAll caller img s = some (.ok rs, t) := by
    rw [applyAll, if_neg (by omega), hsent]
    exact hfilters
  exact ⟨rs, t, hok, (applyAllGivesSixResultsInOrder caller img s t rs hok).1, hsizes⟩

/-- Settles O55: every filter fails, so the two outcomes are `applyFilters_aborted` and `applyFilters_skipped`. -/
theorem engineErrorsReachTheCaller : Obligations.EngineErrorsReachTheCaller := by
  intro caller done s w h hempty names failed
  exact ⟨fun ⟨k, name, hname, habort⟩ => applyFilters_aborted (fun f hf => hf) w h hempty hname habort,
    fun hskip => applyFilters_skipped (fun f hf => hf) w h hempty hskip⟩

end Sys2Proof.FilterBank

/-! SUPPORT and settled statements of 60_exceptions.md: which error a word is answered with, what a failing command leaves
as it was, that no step stops, and that without a `CONV` there is no result. -/

namespace Sys2Proof.Machine

/-! ### A command is answered with its first error (60_exceptions.md R168, R170) -/

/-- `t` is `s` after one answer with code `e`: where `e` is an error, the answer has data 0 and is the only change. -/
structure State.AnsweredWith (s t : State) (e : ErrorCode) : Prop where
  response : ∃ d, t.responses = s.responses ++ [responseWord e d]
  failed : e ≠ .ok → t = s.raise e

theorem State.AnsweredWith.raise (s : State) (e : ErrorCode) : s.AnsweredWith (s.raise e) e := ⟨⟨0, rfl⟩, fun _ => rfl⟩

theorem State.AnsweredWith.respond {s u : State} {d : RspData} (h : u.responses = s.responses) :
    s.AnsweredWith (u.respond d) .ok :=
  ⟨⟨d, by rw [State.respond_responses, h]⟩, fun herror => absurd rfl herror⟩

/-- The one response word of `t` has the code of its answer. -/
theorem State.AnsweredWith.rspError_eq {s t : State} {e : ErrorCode} {r : Word} (h : s.AnsweredWith t e)
    (hr : t.responses = s.responses ++ [r]) : rspError r = e.code := by
  obtain ⟨d, hd⟩ := h.response
  cases List.append_cancel_left (hr.symm.trans hd)
  exact rspError_responseWord e d

/-- A response with an error code was raised (60_exceptions.md R165). -/
theorem State.AnsweredWith.eq_raise {s t : State} {e : ErrorCode} {r : Word} (h : s.AnsweredWith t e)
    (hr : t.responses = s.responses ++ [r]) (herror : rspError r ≠ 0) : t = s.raise e := by
  rw [h.rspError_eq hr] at herror
  exact h.failed (ErrorCode.code_eq_zero_iff.not.1 herror)

/-- The checks of each meaning are those of its pseudocode, in that order. -/
theorem exec_answeredWith_firstError {i : Instr} {s t : State} (h : exec i s = .next t) :
    s.AnsweredWith t (Spec.firstError s i) := by
  cases i with
  | nop | ldpx _ _ | srst => cases h; exact .respond rfl
  | setimg w h' =>
    rw [Spec.firstError, ← Config.bufPixels_eq]
    obtain ⟨hlarge, e⟩ | ⟨hfits, e⟩ := execSetimg_cases w h' s <;> rw [exec, e] at h <;> cases h
    · rw [if_pos hlarge]; exact .raise s _
    · rw [if_neg (Nat.not_lt.2 hfits)]; exact .respond rfl
  | setkrn kh kw =>
    rw [Spec.firstError]
    obtain ⟨heven, e⟩ | ⟨hoddH, hoddW, hlarge, e⟩ | ⟨hoddH, hoddW, hleH, hleW, e⟩ := execSetkrn_cases kh kw s <;>
      rw [exec, e] at h <;> cases h
    · rw [if_pos heven]; exact .raise s _
    · rw [if_neg (by omega), if_pos (by omega)]; exact .raise s _
    · rw [if_neg (by omega), if_neg (by omega)]; exact .respond rfl
  | ldw u v n =>
    rw [Spec.firstError]
    obtain ⟨hlarge, e⟩ | ⟨row, col, hu, hv, e⟩ := execLdw_cases u v n s <;> rw [exec, e] at h <;> cases h
    · rw [if_pos (by omega)]; exact .raise s _
    · rw [if_neg (by omega)]; exact .respond rfl
  | rdpx a =>
    rw [Spec.firstError]
    obtain ⟨hnone, e⟩ | ⟨hvalid, hbeyond, e⟩ | ⟨hvalid, hinside, e⟩ := execRdpx_cases a s <;>
      rw [exec, e] at h <;> cases h
    · rw [if_pos hnone]; exact .raise s _
    · rw [if_neg (by simp [hvalid]), if_pos hbeyond]; exact .raise s _
    · rw [if_neg (by simp [hvalid]), if_neg (Nat.not_le.2 hinside)]; exact .respond rfl
  | conv =>
    rw [Spec.firstError]
    obtain ⟨hk, rfl⟩ | ⟨hk, hi, rfl⟩ | ⟨hk, hi, -, -, -, rfl⟩ := execConv_next h
    · rw [if_pos hk]; exact .raise s _
    · rw [if_neg hk, if_pos hi]; exact .raise s _
    · rw [if_neg hk, if_neg hi]; exact .respond rfl
  | rdreg r =>
    rw [Spec.firstError]
    obtain ⟨hreserved, e⟩ | ⟨reg, hreg, e⟩ := execRdreg_cases r s <;> rw [exec, e] at h <;> cases h
    · rw [if_pos hreserved]; exact .raise s _
    · rw [if_neg (fun hreserved => by simp [ofNumber_none.2 hreserved] at hreg)]; exact .respond rfl
  | rdw u v =>
    rw [Spec.firstError]
    obtain ⟨hlarge, e⟩ | ⟨row, col, hu, hv, e⟩ := execRdw_cases u v s <;> rw [exec, e] at h <;> cases h
    · rw [if_pos (by omega)]; exact .raise s _
    · rw [if_neg (by omega)]; exact .respond rfl

/-- The error of a word: of its decoding, else of its command (60_exceptions.md R168). -/
def State.wordError (s : State) (c : Word) : ErrorCode :=
  match decode c with
  | .ok i => Spec.firstError s i
  | .error _ => .illegalCommand

theorem execWord_answeredWith_wordError {c : Word} {s t : State} (h : execWord c s = .next t) :
    s.AnsweredWith t (s.wordError c) := by
  rw [State.wordError]
  obtain ⟨i, hdecode, e⟩ | ⟨⟨reason, hdecode⟩, e⟩ := execWord_cases c s <;> rw [e] at h <;> rw [hdecode]
  · exact exec_answeredWith_firstError h
  · cases h
    exact .raise s _

/-! ### Which errors there are (60_exceptions.md R163, R166) -/

theorem wordError_ne_degenerateGradient (s : State) (c : Word) : s.wordError c ≠ .degenerateGradient := by
  rw [State.wordError]
  cases decode c with
  | error reason => simp
  | ok i =>
    cases i with
    | nop | ldpx _ _ | srst => simp [Spec.firstError]
    | _ => simp only [Spec.firstError]; split_ifs <;> simp

theorem ErrorCode.code_mem_of_ne_degenerateGradient {e : ErrorCode} (h : e ≠ .degenerateGradient) :
    e.code ∈ [(0 : BitVec 4), 1, 2, 4, 5, 6] := by
  cases e with
  | degenerateGradient => exact absurd rfl h
  | ok | invalidKernel | emptyImage | illegalCommand | outOfRange | noResult => decide

theorem ErrorCode.code_eq_five_iff {e : ErrorCode} : e.code = 5 ↔ e = .outOfRange := by
  cases e <;> decide

/-- The case of `SETKRN`: its two checks together leave two odd dimensions, of which one is 7. -/
theorem firstError_setkrn_eq_outOfRange_iff {s : State} {kh kw : Bits3} :
    Spec.firstError s (.setkrn kh kw) = .outOfRange ↔
      kh.toNat % 2 = 1 ∧ kw.toNat % 2 = 1 ∧ (kh = 7 ∨ kw = 7) := by
  simp only [Spec.firstError, ← BitVec.toNat_inj]
  split_ifs <;> simp <;> omega

/-- The case of `RDPX`: there is a result, and the address is beyond it. -/
theorem firstError_rdpx_eq_outOfRange_iff {s : State} {a : PixelAddr} :
    Spec.firstError s (.rdpx a) = .outOfRange ↔ s.ovalid = true ∧ s.outW.toNat * s.outH.toNat ≤ a.toNat := by
  rw [Spec.firstError]
  split_ifs <;> simp_all

theorem firstError_conv_ne_outOfRange (s : State) : Spec.firstError s .conv ≠ .outOfRange := by
  rw [Spec.firstError]
  split_ifs <;> simp

/-! ### Without a `CONV` there is no result (60_exceptions.md R167) -/

/-- A word that is no `CONV` makes no result (10_state.md R26). -/
theorem execWord_keeps_noResult {c : Word} {s t : State} (hnone : s.ovalid = false) (hconv : decode c ≠ .ok .conv)
    (h : execWord c s = .next t) : t.ovalid = false := by
  obtain ⟨hkept, hcleared, -⟩ := ovalidChangesOnlyAsStated.1 c s t h
  by_cases hsrst : decode c = .ok .srst
  · exact hcleared hsrst
  · rw [hkept hconv hsrst, hnone]

/-! ### The statements -/

/-- Settles O34: an error code in the response is that of the word's error, which was raised. -/
theorem failingCommandChangesNothing : Obligations.FailingCommandChangesNothing := by
  intro c s t r h hr herror
  obtain rfl := (execWord_answeredWith_wordError h).eq_raise hr herror
  rfl

/-- Settles O35: the word's error is `IllegalCommand` or its command's first error. -/
theorem firstErrorIsReported : Obligations.FirstErrorIsReported := by
  intro c s t h
  have hanswer := execWord_answeredWith_wordError h
  obtain ⟨d, hd⟩ := hanswer.response
  refine ⟨_, hd, (hanswer.rspError_eq hd).trans ?_⟩
  rw [State.wordError]
  cases decode c <;> rfl

/-- Settles O36: no word's error is `DegenerateGradient`, and the other codes of R160 are the listed ones. -/
theorem responseCodesAreLegal : Obligations.ResponseCodesAreLegal := by
  intro c s t h
  have hanswer := execWord_answeredWith_wordError h
  obtain ⟨d, hd⟩ := hanswer.response
  refine ⟨_, hd, ?code, fun herror => ?data⟩
  case code =>
    rw [hanswer.rspError_eq hd]
    exact ErrorCode.code_mem_of_ne_degenerateGradient (wordError_ne_degenerateGradient s c)
  case data =>
    obtain rfl := hanswer.eq_raise hd herror
    rw [← List.singleton_inj.1 (List.append_cancel_left hd), rspDataOf_responseWord]

/-- Settles O37: the code is that of the command's first error, and each command's own checks say when that is
`OutOfRange`. -/
theorem outOfRangeExactlyWhen : Obligations.OutOfRangeExactlyWhen := by
  intro i s t r h hr
  rw [(exec_answeredWith_firstError h).rspError_eq hr, ErrorCode.code_eq_five_iff]
  cases i with
  | nop | ldpx _ _ | srst | setimg _ _ | rdreg _ => simp [Spec.firstError]
  | ldw _ _ _ | rdw _ _ => simp [Spec.firstError, or_iff_not_imp_left]
  | setkrn kh kw => simp [firstError_setkrn_eq_outOfRange_iff]
  | rdpx a => simp [firstError_rdpx_eq_outOfRange_iff]
  | conv => simp [firstError_conv_ne_outOfRange]

/-- Settles O41: an idle step and a hardware reset deliver nothing; a word is answered, with its error. -/
theorem stepNeverStops : Obligations.StepNeverStops := by
  intro s hs
  obtain ⟨-, e⟩ | ⟨c, rest, -, e⟩ | ⟨p, rest, -, e⟩ := step_cases s
  · exact ⟨s, [], e, by simp, by simp⟩
  · obtain ⟨t, ht⟩ := execWord_answers c (hs.of_legalityRegisters_eq (t := { s with pending := rest }) rfl)
    obtain ⟨d, hd⟩ := (execWord_answeredWith_wordError ht).response
    exact ⟨t, _, e.trans ht, hd, List.forall_mem_singleton.2 ⟨_, rspError_responseWord _ d⟩⟩
  · exact ⟨_, [], e, by simp, by simp⟩

/-- Settles O46, by induction on the words: none of them makes a result, and without one `RDPX` answers `NoResult`. -/
theorem noResultBeforeConv : Obligations.NoResultBeforeConv := by
  intro cs
  induction cs with
  | nil =>
    intro s t hnone _ hrun a
    cases hrun
    rw [exec_rdpx, State.rdpxAnswer_noResult hnone]
    rfl
  | cons c cs ih =>
    intro s t hnone hconv hrun
    obtain ⟨hc, hcs⟩ := List.forall_mem_cons.1 hconv
    cases hword : execWord c s with
    | next u =>
      rw [runWords_cons hword] at hrun
      exact ih u t (execWord_keeps_noResult hnone hc hword) hcs hrun
    | fault _ | refused _ => simp [runWords, hword] at hrun

end Sys2Proof.Machine

/-! SUPPORT and settled statement of 70_reset_and_hazards.md: what the hardware reset makes of a state. -/

namespace Sys2Proof.Machine

/-- Of the state before it, a hardware reset keeps what the host has still to present, the responses delivered and the
count of resets; the abandoned command leaves no trace (R190 to R192; logs 3 to 5). -/
theorem hardReset_eq_reset (s : State) (p : Option Word) :
    s.hardReset p =
      { State.reset with pending := s.pending, responses := s.responses, resets := s.resets + 1 } := rfl

/-- Settles O14: the step is `hardReset`, which is the reset state but for the host's side, and its memories read as the
free values of the new reset. -/
theorem hardwareResetFromAnyState : Obligations.HardwareResetFromAnyState := by
  intro s p rest hp
  exact ⟨_, step_of_reset hp, hardReset_eq_reset _ p, State.hardReset_readIbuf _ p, State.hardReset_readObuf _ p⟩

end Sys2Proof.Machine
